-- ==== Sys2Proof/Word.lean ====
section
/-! DEFINITION. The word type of the yuemu core and the notation of spec/00_scope.md section 6. -/

namespace Sys2Proof

/-- A 32-bit unit of memory or register storage (00_scope.md R7 and glossary). -/
abbrev Word := BitVec 32

/-- One byte of a program file. There are no bytes inside the machine (20_memory.md R39). -/
abbrev Byte := BitVec 8

/-- A register number, 0 to 255 (10_state.md R10). -/
abbrev Reg := Fin 256

/-- `u(v)`: the unsigned reading of a 32-bit pattern. -/
abbrev uval (v : Word) : Nat := v.toNat

/-- `s(v)`: the signed (two's-complement) reading of a 32-bit pattern. -/
abbrev sval (v : Word) : Int := v.toInt

/-- `wrap(n)`: the 32-bit pattern whose unsigned reading is `n mod 2^32`. -/
def wrap (n : Int) : Word := BitVec.ofInt 32 n

end Sys2Proof
end

