-- ==== Sys2Proof/Config.lean ====
section
/-! DEFINITION. What an implementation fixes (spec/00_scope.md R8): the parameters OPMAP, SHIFT_OOR, DIV0_POLICY and
RS_DEPTH as plain data, their defaults, and the one free value.
END_ADDR and MEM0 belong to a run and stand in Machine/State.lean and Machine/Boot.lean. -/

namespace Sys2Proof

/-- The thirty instruction names of 30_encoding.md R60, the values of the parameter OPMAP. -/
inductive Mnemonic where
  | loadimm | loadind | storeind | storedir | loaddir
  | add | sub | mul | div
  | jump | jumpd | jumpif | jumpifd | ret | end_ | branch | branchif | branchifd
  | and | or | nand | nor | xor
  | lsl | lsr
  | lt | lte | gt | gte | eq
  deriving DecidableEq, Repr

/-- One entry of OPMAP: the pair (`cat`, `op`) selects `mnemonic` (30_encoding.md R51, R60). -/
structure OpRow where
  cat : BitVec 4
  op : BitVec 4
  mnemonic : Mnemonic
  deriving DecidableEq, Repr

/-- The parameter OPMAP, a partial map from (category nibble, opcode nibble) to mnemonic, as its list of entries
(00_scope.md R8). -/
abbrev OpMap := List OpRow

/-- Category 0 of the default OPMAP (30_encoding.md R60). -/
def OpMap.memoryRows : OpMap :=
  [⟨0, 0, .loadimm⟩, ⟨0, 1, .loadind⟩, ⟨0, 2, .storeind⟩, ⟨0, 3, .storedir⟩, ⟨0, 4, .loaddir⟩]

/-- Category 1 of the default OPMAP. -/
def OpMap.arithmeticRows : OpMap :=
  [⟨1, 0, .add⟩, ⟨1, 1, .sub⟩, ⟨1, 2, .mul⟩, ⟨1, 3, .div⟩]

/-- Category 2 of the default OPMAP. -/
def OpMap.controlRows : OpMap :=
  [⟨2, 0, .jump⟩, ⟨2, 1, .jumpd⟩, ⟨2, 2, .jumpif⟩, ⟨2, 3, .jumpifd⟩, ⟨2, 4, .ret⟩, ⟨2, 5, .end_⟩,
   ⟨2, 6, .branch⟩, ⟨2, 7, .branchif⟩, ⟨2, 8, .branchifd⟩]

/-- Category 3 of the default OPMAP. -/
def OpMap.logicalRows : OpMap :=
  [⟨3, 0, .and⟩, ⟨3, 1, .or⟩, ⟨3, 2, .nand⟩, ⟨3, 3, .nor⟩, ⟨3, 4, .xor⟩]

/-- Category 4 of the default OPMAP. -/
def OpMap.shiftRows : OpMap := [⟨4, 0, .lsl⟩, ⟨4, 1, .lsr⟩]

/-- Category 5 of the default OPMAP. -/
def OpMap.comparisonRows : OpMap :=
  [⟨5, 0, .lt⟩, ⟨5, 1, .lte⟩, ⟨5, 2, .gt⟩, ⟨5, 3, .gte⟩, ⟨5, 4, .eq⟩]

/-- The default OPMAP, the table of 30_encoding.md R60.
UNVERIFIED (notes/assumptions/2.md): the numbers are the spec's own choice, 92_eei_decisions.md D1. -/
def OpMap.default : OpMap :=
  OpMap.memoryRows ++ OpMap.arithmeticRows ++ OpMap.controlRows ++ OpMap.logicalRows ++ OpMap.shiftRows ++
    OpMap.comparisonRows

/-- The two directions of a shift, the first argument of SHIFT_OOR (45_shift.md R152). -/
inductive ShiftDir where
  | left | right
  deriving DecidableEq, Repr

/-- The parameter SHIFT_OOR: what a shift by an amount outside 0..31 gives (45_shift.md R152,
93_implementation_defined.md U2). See notes/assumptions/3.md. -/
inductive ShiftOor where
  /-- The spec's default: the signed reading of the amount is clamped to 0..31. -/
  | clamp
  /-- The result is 0. -/
  | zero
  /-- The amount is taken modulo 32. -/
  | modulo32
  /-- A total function of the direction, the value and the amount of which nothing is known: `Config.freeShift k`. -/
  | free (k : Nat)
  deriving DecidableEq, Repr

/-- The parameter DIV0_POLICY: what `div` does when the divisor is 0 (42_arithmetic.md R114,
93_implementation_defined.md U1). See notes/assumptions/4.md. -/
inductive Div0Policy where
  /-- The spec's default: the fatal condition DivisionByZero. -/
  | fatal
  /-- A quotient the configuration gives: the model returns a value only where it takes that value as a parameter. -/
  | value (q : Word)
  deriving DecidableEq, Repr

/-- The parameters of 00_scope.md R8 that are fixed for a machine, as plain data. -/
structure Config where
  opmap : OpMap
  shiftOor : ShiftOor
  div0 : Div0Policy
  /-- RS_DEPTH, the capacity of the return stack: none is unbounded (10_state.md R18). -/
  rsDepth : Option Nat
  deriving DecidableEq, Repr

/-- The defaults of 00_scope.md R8. -/
def Config.default : Config where
  opmap := OpMap.default
  shiftOor := .clamp
  div0 := .fatal
  rsDepth := none

/-- The free value of the model: the `k`-th SHIFT_OOR of which nothing is known, "a total, deterministic function of the
direction, the value and the amount alone" (45_shift.md R152). It has no body, so no proof can see a value of it. -/
opaque Config.freeShift : Nat → ShiftDir → Word → Word → Word

end Sys2Proof
end

