-- ==== Sys2Proof/Syntax.lean ====
section
/-! DEFINITION. The instructions of the yuemu core, one constructor per row of spec/opcode_table.json, in the table's
order. Operands stand in the order of the notation of spec/30_encoding.md R68 (destination first). A register operand is a
register number; an immediate, an offset and an address are the 32-bit patterns that 30_encoding.md R61 makes of the
instruction's field (sign-extended, sign-extended, zero-extended). -/

namespace Sys2Proof

inductive Instr where
  /-- `loadimm rD, imm` (41_memory_ops.md R100). -/
  | loadimm (rd : Reg) (imm : Word)
  /-- `loadind rD, [rA]` (R101). -/
  | loadind (rd raddr : Reg)
  /-- `storeind [rA], rS` (R102). -/
  | storeind (raddr rs : Reg)
  /-- `storedir [addr], rS` (R103). -/
  | storedir (addr : Word) (rs : Reg)
  /-- `loaddir rD, [addr]` (R104). -/
  | loaddir (rd : Reg) (addr : Word)
  /-- `add rD, rS1, rS2` (42_arithmetic.md R110). -/
  | add (rd rs1 rs2 : Reg)
  /-- `sub rD, rS1, rS2` (R111). -/
  | sub (rd rs1 rs2 : Reg)
  /-- `mul rD, rS1, rS2` (R112). -/
  | mul (rd rs1 rs2 : Reg)
  /-- `div rD, rS1, rS2` (R113). -/
  | div (rd rs1 rs2 : Reg)
  /-- `jump off` (43_control.md R122). -/
  | jump (off : Word)
  /-- `jumpd rS` (R123). -/
  | jumpd (rs : Reg)
  /-- `jumpif rC, off` (R124). -/
  | jumpif (rcond : Reg) (off : Word)
  /-- `jumpifd rC, rS` (R125). -/
  | jumpifd (rcond rs : Reg)
  /-- `ret` (R127). -/
  | ret
  /-- `end` (R128). -/
  | end_
  /-- `branch off` (R129). -/
  | branch (off : Word)
  /-- `branchif rC, off` (R130). -/
  | branchif (rcond : Reg) (off : Word)
  /-- `branchifd rC, rS` (R131). -/
  | branchifd (rcond rs : Reg)
  /-- `and rD, rS1, rS2` (44_logical.md R140). -/
  | and (rd rs1 rs2 : Reg)
  /-- `or rD, rS1, rS2` (R141). -/
  | or (rd rs1 rs2 : Reg)
  /-- `nand rD, rS1, rS2` (R142). -/
  | nand (rd rs1 rs2 : Reg)
  /-- `nor rD, rS1, rS2` (R143). -/
  | nor (rd rs1 rs2 : Reg)
  /-- `xor rD, rS1, rS2` (R144). -/
  | xor (rd rs1 rs2 : Reg)
  /-- `lsl rD, rS1, rS2` (45_shift.md R150). -/
  | lsl (rd rs1 rs2 : Reg)
  /-- `lsr rD, rS1, rS2` (R151). -/
  | lsr (rd rs1 rs2 : Reg)
  /-- `lt rD, rS1, rS2` (46_comparison.md R160). -/
  | lt (rd rs1 rs2 : Reg)
  /-- `lte rD, rS1, rS2` (R161). -/
  | lte (rd rs1 rs2 : Reg)
  /-- `gt rD, rS1, rS2` (R162). -/
  | gt (rd rs1 rs2 : Reg)
  /-- `gte rD, rS1, rS2` (R163). -/
  | gte (rd rs1 rs2 : Reg)
  /-- `eq rD, rS1, rS2` (R164). -/
  | eq (rd rs1 rs2 : Reg)
  deriving DecidableEq, Repr

end Sys2Proof
end

