-- ==== Sys2Proof/WellFormed.lean ====
section
/-! DEFINITION. The checks on an instruction (every converted operand is one its field can give, spec/30_encoding.md R61)
and on an OPMAP (it is a partial map, spec/00_scope.md R8). -/

namespace Sys2Proof

/-- The word is the sign extension of a 16-bit field: its signed reading is in -32768..32767 (R61, `imm16`). -/
def fitsSigned16 (v : Word) : Bool := decide (-32768 ≤ v.toInt) && decide (v.toInt ≤ 32767)

/-- The word is the sign extension of a 24-bit field: its signed reading is in -8388608..8388607 (R61, `offset24`). -/
def fitsSigned24 (v : Word) : Bool := decide (-8388608 ≤ v.toInt) && decide (v.toInt ≤ 8388607)

/-- The word is the zero extension of a 16-bit field: its unsigned reading is in 0..65535 (R61, `addr16`). -/
def fitsUnsigned16 (v : Word) : Bool := decide (v.toNat ≤ 65535)

/-- Every operand is one that the instruction's field gives. A register number is in range by its type (10_state.md R10:
every encodable index names a register). -/
def Instr.wellFormed : Instr → Bool
  | .loadimm _ imm => fitsSigned16 imm
  | .loadind _ _ => true
  | .storeind _ _ => true
  | .storedir addr _ => fitsUnsigned16 addr
  | .loaddir _ addr => fitsUnsigned16 addr
  | .add _ _ _ => true
  | .sub _ _ _ => true
  | .mul _ _ _ => true
  | .div _ _ _ => true
  | .jump off => fitsSigned24 off
  | .jumpd _ => true
  | .jumpif _ off => fitsSigned16 off
  | .jumpifd _ _ => true
  | .ret => true
  | .end_ => true
  | .branch off => fitsSigned24 off
  | .branchif _ off => fitsSigned16 off
  | .branchifd _ _ => true
  | .and _ _ _ => true
  | .or _ _ _ => true
  | .nand _ _ _ => true
  | .nor _ _ _ => true
  | .xor _ _ _ => true
  | .lsl _ _ _ => true
  | .lsr _ _ _ => true
  | .lt _ _ _ => true
  | .lte _ _ _ => true
  | .gt _ _ _ => true
  | .gte _ _ _ => true
  | .eq _ _ _ => true

/-- No two entries of the map name the same pair (`cat`, `op`): the list is a partial map (00_scope.md R8). -/
def OpMap.wellFormed : OpMap → Bool
  | [] => true
  | r :: rest => !(rest.any fun q => decide (q.cat = r.cat) && decide (q.op = r.op)) && OpMap.wellFormed rest

end Sys2Proof
end

