-- ==== Sys2Proof/Decode.lean ====
section
/-! DEFINITION. The decoder (spec/30_encoding.md R50 to R66), total on every 32-bit word, and the encoder written from the
same layouts. Both take the parameter OPMAP; `decode` and `encode` are the two under the default map. -/

namespace Sys2Proof

/-! ### Fields -/

/-- `cat`, bits 31:28 (R51). -/
def fieldCat (w : Word) : BitVec 4 := w.extractLsb' 28 4

/-- `op`, bits 27:24 (R51). -/
def fieldOp (w : Word) : BitVec 4 := w.extractLsb' 24 4

/-- The register field at bits 23:16. -/
def fieldHi (w : Word) : Reg := (w.extractLsb' 16 8).toFin

/-- The register field at bits 15:8. -/
def fieldMid (w : Word) : Reg := (w.extractLsb' 8 8).toFin

/-- The register field at bits 7:0. -/
def fieldLo (w : Word) : Reg := (w.extractLsb' 0 8).toFin

/-- `imm16` of format LI, bits 15:0, sign-extended (R53, R61). -/
def fieldImmLI (w : Word) : Word := (w.extractLsb' 0 16).signExtend 32

/-- `imm16` of format CI, bits 23:8, sign-extended (R57, R61). -/
def fieldImmCI (w : Word) : Word := (w.extractLsb' 8 16).signExtend 32

/-- `offset24` of format J, bits 23:0, sign-extended (R56, R61). -/
def fieldOffset24 (w : Word) : Word := (w.extractLsb' 0 24).signExtend 32

/-- `addr16` of format MD, bits 15:0, zero-extended (R55, R61; the spec's decision D7). -/
def fieldAddr16 (w : Word) : Word := (w.extractLsb' 0 16).setWidth 32

/-! ### The map -/

/-- Some entry of OPMAP has category `cat` (R62). -/
def OpMap.hasCategory (m : OpMap) (cat : BitVec 4) : Bool := m.any fun r => decide (r.cat = cat)

/-- OPMAP at the pair (`cat`, `op`) (R62). -/
def OpMap.lookup : OpMap → BitVec 4 → BitVec 4 → Option Mnemonic
  | [], _, _ => none
  | r :: rest, cat, op => if r.cat = cat ∧ r.op = op then some r.mnemonic else OpMap.lookup rest cat op

/-- The first pair (`cat`, `op`) that OPMAP gives to a mnemonic. -/
def OpMap.codeOf : OpMap → Mnemonic → Option (BitVec 4 × BitVec 4)
  | [], _ => none
  | r :: rest, mn => if r.mnemonic = mn then some (r.cat, r.op) else OpMap.codeOf rest mn

/-! ### The decoder -/

/-- The fields of `w` per the format of the mnemonic, converted per R61 (R52 to R59). -/
def assemble (mn : Mnemonic) (w : Word) : Instr :=
  match mn with
  | .loadimm => .loadimm (fieldHi w) (fieldImmLI w)
  | .loadind => .loadind (fieldMid w) (fieldHi w)
  | .storeind => .storeind (fieldHi w) (fieldMid w)
  | .storedir => .storedir (fieldAddr16 w) (fieldHi w)
  | .loaddir => .loaddir (fieldHi w) (fieldAddr16 w)
  | .add => .add (fieldHi w) (fieldMid w) (fieldLo w)
  | .sub => .sub (fieldHi w) (fieldMid w) (fieldLo w)
  | .mul => .mul (fieldHi w) (fieldMid w) (fieldLo w)
  | .div => .div (fieldHi w) (fieldMid w) (fieldLo w)
  | .jump => .jump (fieldOffset24 w)
  | .jumpd => .jumpd (fieldHi w)
  | .jumpif => .jumpif (fieldLo w) (fieldImmCI w)
  | .jumpifd => .jumpifd (fieldLo w) (fieldHi w)
  | .ret => .ret
  | .end_ => .end_
  | .branch => .branch (fieldOffset24 w)
  | .branchif => .branchif (fieldLo w) (fieldImmCI w)
  | .branchifd => .branchifd (fieldLo w) (fieldHi w)
  | .and => .and (fieldHi w) (fieldMid w) (fieldLo w)
  | .or => .or (fieldHi w) (fieldMid w) (fieldLo w)
  | .nand => .nand (fieldHi w) (fieldMid w) (fieldLo w)
  | .nor => .nor (fieldHi w) (fieldMid w) (fieldLo w)
  | .xor => .xor (fieldHi w) (fieldMid w) (fieldLo w)
  | .lsl => .lsl (fieldHi w) (fieldMid w) (fieldLo w)
  | .lsr => .lsr (fieldHi w) (fieldMid w) (fieldLo w)
  | .lt => .lt (fieldHi w) (fieldMid w) (fieldLo w)
  | .lte => .lte (fieldHi w) (fieldMid w) (fieldLo w)
  | .gt => .gt (fieldHi w) (fieldMid w) (fieldLo w)
  | .gte => .gte (fieldHi w) (fieldMid w) (fieldLo w)
  | .eq => .eq (fieldHi w) (fieldMid w) (fieldLo w)

/-- What the decoder answers: an operation descriptor, or one of the two decode failures (R62). -/
inductive Decoded where
  | instr (i : Instr)
  | invalidCategory
  | invalidOpcode
  deriving DecidableEq, Repr

/-- `decode(w)` under the map `m` (R62). -/
def decodeWith (m : OpMap) (w : Word) : Decoded :=
  if m.hasCategory (fieldCat w) then
    match m.lookup (fieldCat w) (fieldOp w) with
    | some mn => .instr (assemble mn w)
    | none => .invalidOpcode
  else .invalidCategory

/-- `decode(w)` under the default OPMAP. -/
def decode (w : Word) : Decoded := decodeWith OpMap.default w

/-! ### The encoder -/

/-- The OPMAP name of an instruction. -/
def Instr.mnemonic : Instr → Mnemonic
  | .loadimm _ _ => .loadimm
  | .loadind _ _ => .loadind
  | .storeind _ _ => .storeind
  | .storedir _ _ => .storedir
  | .loaddir _ _ => .loaddir
  | .add _ _ _ => .add
  | .sub _ _ _ => .sub
  | .mul _ _ _ => .mul
  | .div _ _ _ => .div
  | .jump _ => .jump
  | .jumpd _ => .jumpd
  | .jumpif _ _ => .jumpif
  | .jumpifd _ _ => .jumpifd
  | .ret => .ret
  | .end_ => .end_
  | .branch _ => .branch
  | .branchif _ _ => .branchif
  | .branchifd _ _ => .branchifd
  | .and _ _ _ => .and
  | .or _ _ _ => .or
  | .nand _ _ _ => .nand
  | .nor _ _ _ => .nor
  | .xor _ _ _ => .xor
  | .lsl _ _ _ => .lsl
  | .lsr _ _ _ => .lsr
  | .lt _ _ _ => .lt
  | .lte _ _ _ => .lte
  | .gt _ _ _ => .gt
  | .gte _ _ _ => .gte
  | .eq _ _ _ => .eq

/-- A register number as its 8-bit field. -/
def regBits (r : Reg) : BitVec 8 := BitVec.ofFin r

/-- The low 16 bits of an operand, its 16-bit field. -/
def low16 (v : Word) : BitVec 16 := v.setWidth 16

/-- The low 24 bits of an operand, its 24-bit field. -/
def low24 (v : Word) : BitVec 24 := v.setWidth 24

/-- Three register fields, format R (R52). -/
def bitsR (rd rs1 rs2 : Reg) : BitVec 24 := regBits rd ++ regBits rs1 ++ regBits rs2

/-- Bits 23:0 of the instruction's word (R52 to R59), unused bits 0. -/
def operandBits : Instr → BitVec 24
  | .loadimm rd imm => regBits rd ++ low16 imm
  | .loadind rd raddr => regBits raddr ++ regBits rd ++ (0 : BitVec 8)
  | .storeind raddr rs => regBits raddr ++ regBits rs ++ (0 : BitVec 8)
  | .storedir addr rs => regBits rs ++ low16 addr
  | .loaddir rd addr => regBits rd ++ low16 addr
  | .add rd rs1 rs2 => bitsR rd rs1 rs2
  | .sub rd rs1 rs2 => bitsR rd rs1 rs2
  | .mul rd rs1 rs2 => bitsR rd rs1 rs2
  | .div rd rs1 rs2 => bitsR rd rs1 rs2
  | .jump off => low24 off
  | .jumpd rs => regBits rs ++ (0 : BitVec 16)
  | .jumpif rcond off => low16 off ++ regBits rcond
  | .jumpifd rcond rs => regBits rs ++ (0 : BitVec 8) ++ regBits rcond
  | .ret => 0
  | .end_ => 0
  | .branch off => low24 off
  | .branchif rcond off => low16 off ++ regBits rcond
  | .branchifd rcond rs => regBits rs ++ (0 : BitVec 8) ++ regBits rcond
  | .and rd rs1 rs2 => bitsR rd rs1 rs2
  | .or rd rs1 rs2 => bitsR rd rs1 rs2
  | .nand rd rs1 rs2 => bitsR rd rs1 rs2
  | .nor rd rs1 rs2 => bitsR rd rs1 rs2
  | .xor rd rs1 rs2 => bitsR rd rs1 rs2
  | .lsl rd rs1 rs2 => bitsR rd rs1 rs2
  | .lsr rd rs1 rs2 => bitsR rd rs1 rs2
  | .lt rd rs1 rs2 => bitsR rd rs1 rs2
  | .lte rd rs1 rs2 => bitsR rd rs1 rs2
  | .gt rd rs1 rs2 => bitsR rd rs1 rs2
  | .gte rd rs1 rs2 => bitsR rd rs1 rs2
  | .eq rd rs1 rs2 => bitsR rd rs1 rs2

/-- The bits a mnemonic's format marks unused (R54, R58, R59, R63). -/
def unusedBits : Mnemonic → Word
  | .loadimm => 0
  | .loadind => 0x000000FF
  | .storeind => 0x000000FF
  | .storedir => 0
  | .loaddir => 0
  | .add => 0
  | .sub => 0
  | .mul => 0
  | .div => 0
  | .jump => 0
  | .jumpd => 0x0000FFFF
  | .jumpif => 0
  | .jumpifd => 0x0000FF00
  | .ret => 0x00FFFFFF
  | .end_ => 0x00FFFFFF
  | .branch => 0
  | .branchif => 0
  | .branchifd => 0x0000FF00
  | .and => 0
  | .or => 0
  | .nand => 0
  | .nor => 0
  | .xor => 0
  | .lsl => 0
  | .lsr => 0
  | .lt => 0
  | .lte => 0
  | .gt => 0
  | .gte => 0
  | .eq => 0

/-- The word of an instruction under the map `m`: the header of R51, then the operand bits. None where the map gives the
instruction no code. -/
def encodeWith (m : OpMap) (i : Instr) : Option Word :=
  match m.codeOf i.mnemonic with
  | some (cat, op) => some (cat ++ op ++ operandBits i)
  | none => none

/-- The word of an instruction under the default OPMAP, which gives every instruction a code. -/
def encode (i : Instr) : Option Word := encodeWith OpMap.default i

/-- The instruction the decoder reads from a word numbered as spec/opcode_table.json numbers it: bit 0 is the least
significant bit, as the spec's own numbering (00_scope.md section 6), and every row has 32 bits (R50). Bits above `nbits`
are 0. The default OPMAP is the table's. -/
def decodeTableWord (nbits w : Nat) : Option Instr :=
  match decode (BitVec.ofNat 32 (w % 2 ^ nbits)) with
  | .instr i => some i
  | .invalidCategory => none
  | .invalidOpcode => none

end Sys2Proof
end

