-- ==== Sys2Proof/Machine/State.lean ====
section
/-! DEFINITION. The state of the yuemu core (spec/10_state.md, spec/20_memory.md, spec/60_exceptions.md), the reasons a
step can stop, and the state after reset. -/

namespace Sys2Proof.Machine

/-- The sparse memory: the listed cells, each a 32-bit word under its 32-bit address, and 0 in every other cell
(20_memory.md R31, R33). The addresses rise strictly and no listed cell holds 0 (`Memory.wf`, Machine/Ops.lean), so equal
memories are equal data. A cell is one whole word: "There are no bytes inside the memory" (R33). See
notes/assumptions/9.md. -/
structure Memory where
  cells : List (Nat × Word)
  deriving DecidableEq, Repr

/-- Why a run ended (10_state.md R19, 60_exceptions.md R170 to R175). -/
inductive HaltCause where
  /-- `End`, success: the `end` instruction executed (R174). -/
  | ended
  /-- `PcExhausted`, success: the pc equalled END_ADDR at the start of a step (R174). -/
  | pcExhausted
  /-- `InvalidCategory`, failure (R170). -/
  | invalidCategory
  /-- `InvalidOpcode`, failure (R171). -/
  | invalidOpcode
  /-- `DivisionByZero`, failure (R172). -/
  | divisionByZero
  /-- `MisalignedTarget`, failure (R173). -/
  | misalignedTarget
  /-- `ReturnStackOverflow`, failure, only with a finite RS_DEPTH (R175). -/
  | returnStackOverflow
  deriving DecidableEq, Repr

/-- The run status (10_state.md R19). -/
inductive Status where
  | running
  | halted (cause : HaltCause)
  deriving DecidableEq, Repr

/-- Everything the spec gives the machine. The last two fields are inputs the spec keeps apart from state and holds fixed
during a run (00_scope.md R8, 70_reset_and_hazards.md R214). They stand here as plain data because exec and step take
nothing but a state (notes/assumptions/1.md), and no step changes them. -/
structure State where
  /-- `x[0]` .. `x[255]` (10_state.md R10). -/
  regs : Vector Word 256
  /-- The program counter (R14). -/
  pc : Word
  /-- The one memory (20_memory.md R30). -/
  mem : Memory
  /-- The return stack, top first (10_state.md R16, R18). -/
  rstack : List Word
  /-- The run status (R19). -/
  status : Status
  /-- `diag_pc`: the pc of the instruction that failed (R19, 60_exceptions.md R176). -/
  diagPc : Word
  /-- `diag_word`: its raw word (R19, R176). -/
  diagWord : Word
  /-- END_ADDR, the end-of-program sentinel the loader supplies: none before a program is loaded (70_reset_and_hazards.md
  R204, R205, notes/assumptions/6.md). -/
  endAddr : Option Word
  /-- OPMAP, SHIFT_OOR, DIV0_POLICY and RS_DEPTH (00_scope.md R8). -/
  cfg : Config
  deriving DecidableEq, Repr

/-- Why the machine has no next state although the spec's machine is in order. -/
inductive Fault where
  /-- Raised by `step` alone, in a halted state: "In `Halted` no step is possible and no state changes" (10_state.md R19,
  40_step_cycle.md R80). Safe: the hardware does nothing there. -/
  | noStepWhenHalted
  deriving DecidableEq, Repr

/-- What the model gives no run. -/
inductive Refusal where
  /-- Answered by exec for an instruction that has no meaning yet. Safe. No arm answers it. -/
  | notModelled (mnemonic : String)
  /-- Answered by `step` alone: no program is loaded, so there is no END_ADDR to compare the pc with, and a model "does not
  invent an END_ADDR" (70_reset_and_hazards.md R205). Safe. -/
  | noProgramLoaded
  /-- Answered by `State.boot` for an empty program file (R205, 92_eei_decisions.md D15). Safe. -/
  | emptyProgramFile
  /-- Answered by `State.boot` for a file whose length is not a multiple of 4 (R205, D15). Safe. -/
  | partialWordInProgramFile
  /-- Answered by `State.boot` for more than 2^30 words (R206). Safe. -/
  | programTooLarge
  deriving DecidableEq, Repr

/-- What executing one instruction yields (40_step_cycle.md R83): the state with the instruction's writes and no change of
the pc, or that state and the new pc, or the cause of a halt. It carries the retarget signal of 10_state.md R20, which is
no state. -/
inductive StepResult where
  | continue_ (s : State)
  | jumped (s : State) (target : Word)
  | halted (cause : HaltCause)
  deriving DecidableEq, Repr

/-- The machine right after reset with no program loaded (10_state.md R25, 70_reset_and_hazards.md R200): every register 0,
the pc 0, the return stack empty, every cell 0, the status Running. `diagPc` and `diagWord` are unspecified there
(DESIGN CHOICE 0, unsafe, notes/assumptions/8.md). `endAddr` is none (DEDUCED, safe, notes/assumptions/6.md). The parameters
have the spec's defaults. `State.boot` (Machine/Boot.lean) is reset with a program. -/
def State.reset : State where
  regs := Vector.replicate 256 0
  pc := 0
  mem := ⟨[]⟩
  rstack := []
  status := .running
  diagPc := 0
  diagWord := 0
  endAddr := none
  cfg := Config.default

end Sys2Proof.Machine
end

