-- ==== Sys2Proof/Machine/Ops.lean ====
section
/-! DEFINITION. The named operations over registers, memory, pc, return stack and status that every meaning is built of:
the register file (spec/10_state.md R10 to R13), the memory (spec/20_memory.md R31), the return stack (10_state.md R16 to
R18), taking a halt (spec/60_exceptions.md R176) and the pc update of a step (spec/40_step_cycle.md R84). -/

namespace Sys2Proof.Machine

/-! ### Registers -/

/-- `x[r]`. No register is special (10_state.md R11). -/
def State.reg (s : State) (r : Reg) : Word := s.regs.get r

/-- `x[r] <- v`. -/
def State.setReg (s : State) (r : Reg) (v : Word) : State := { s with regs := s.regs.set r.val v r.isLt }

/-! ### Memory -/

/-- What a cell that is not listed holds (20_memory.md R31: "An address never written reads as 0"). -/
def unlistedCell : Word := 0

/-- The cell at key `k` of a list of cells. -/
def cellsRead : List (Nat × Word) → Nat → Word
  | [], _ => unlistedCell
  | c :: rest, k => if c.1 = k then c.2 else cellsRead rest k

/-- The list with `v` at key `k`, in canonical form: a cell that reads as an unlisted one is not listed. -/
def cellsWrite : List (Nat × Word) → Nat → Word → List (Nat × Word)
  | [], k, v => if v = unlistedCell then [] else [(k, v)]
  | c :: rest, k, v =>
    if k < c.1 then
      if v = unlistedCell then c :: rest else (k, v) :: c :: rest
    else if k = c.1 then
      if v = unlistedCell then rest else (k, v) :: rest
    else c :: cellsWrite rest k v

/-- Every key of the list lies above `k`, the keys rise strictly, each is a 32-bit address, and no cell reads as an
unlisted one. -/
def cellsAbove (k : Nat) : List (Nat × Word) → Bool
  | [] => true
  | c :: rest => decide (k < c.1) && decide (c.1 < 2 ^ 32) && decide (c.2 ≠ unlistedCell) && cellsAbove c.1 rest

/-- The canonical form of a list of cells: as `cellsAbove`, with no bound below the first key. -/
def cellsCanonical : List (Nat × Word) → Bool
  | [] => true
  | c :: rest => decide (c.1 < 2 ^ 32) && decide (c.2 ≠ unlistedCell) && cellsAbove c.1 rest

/-- The memory is in its one canonical form. -/
def Memory.wf (m : Memory) : Bool := cellsCanonical m.cells

/-- `MemRead(a, 4)`: the whole cell at address `a` (20_memory.md R31, R34). -/
def Memory.read (m : Memory) (a : Word) : Word := cellsRead m.cells a.toNat

/-- `MemWrite(a, 4, v)`: the memory with `v` in cell `a` and every other cell as it was (R31, R33, R34). -/
def Memory.write (m : Memory) (a v : Word) : Memory := ⟨cellsWrite m.cells a.toNat v⟩

/-- A store: `MemWrite(a, 4, v)` on the state's memory. -/
def State.store (s : State) (a v : Word) : State := { s with mem := s.mem.write a v }

/-- The instruction word of the step: the current content of the cell at the pc (40_step_cycle.md R82). -/
def State.fetchWord (s : State) : Word := s.mem.read s.pc

/-! ### Program counter and return stack -/

/-- `wrap(u(pc) + 4)`: the address after the instruction (40_step_cycle.md R84; modulo 2^32, the spec's decision D10). -/
def State.nextPc (s : State) : Word := wrap (uval s.pc + 4)

/-- `push(v)` (10_state.md R16). -/
def State.push (s : State) (v : Word) : State := { s with rstack := v :: s.rstack }

/-- The stack already holds RS_DEPTH entries; never so with the unbounded default (10_state.md R18, 60_exceptions.md
R175). -/
def State.stackFull (s : State) : Bool :=
  match s.cfg.rsDepth with
  | none => false
  | some d => decide (d ≤ s.rstack.length)

/-! ### Halting -/

/-- The class of a cause (60_exceptions.md R177, R178): End and PcExhausted are successes, every other cause a failure. -/
def HaltCause.isFailure : HaltCause → Bool
  | .ended => false
  | .pcExhausted => false
  | .invalidCategory => true
  | .invalidOpcode => true
  | .divisionByZero => true
  | .misalignedTarget => true
  | .returnStackOverflow => true

/-- The code of a status at the block boundary (60_exceptions.md R177). -/
def Status.code : Status → Nat
  | .running => 0
  | .halted .ended => 1
  | .halted .pcExhausted => 2
  | .halted .invalidCategory => 3
  | .halted .invalidOpcode => 4
  | .halted .divisionByZero => 5
  | .halted .misalignedTarget => 6
  | .halted .returnStackOverflow => 7

/-- Taking a halt, `raise <Cause>(pc, w)` and the two successful ends alike (60_exceptions.md R176): the status becomes
Halted(cause), a failure records the pc and the raw word at it, nothing else changes. The word is the cell at the pc, which
is the word the step fetched (notes/assumptions/11.md). There is no return from it (R181). -/
def State.halt (s : State) (cause : HaltCause) : State :=
  if cause.isFailure then { s with status := .halted cause, diagPc := s.pc, diagWord := s.fetchWord }
  else { s with status := .halted cause }

/-! ### The end of a step -/

/-- The pc update (40_step_cycle.md R84). After Continue the pc of the state before the step is advanced by 4, after Jumped
it is the target and no 4 is added, and a halt leaves it. -/
def retire (s : State) : StepResult → Host.Outcome State Fault Refusal
  | .continue_ t => .next { t with pc := s.nextPc }
  | .jumped t target => .next { t with pc := target }
  | .halted cause => .next (s.halt cause)

/-! ### Placing a word where the next step fetches it -/

/-- The state in which the next step fetches the word `w`: it lies at the pc, the status is Running, and END_ADDR is not the
pc (an END_ADDR that is elsewhere is kept). This stands for a load from outside the machine (notes/assumptions/7.md). -/
def State.placeWord (s : State) (w : Word) : State :=
  { s with
    mem := s.mem.write s.pc w
    status := .running
    endAddr := if s.endAddr = none ∨ s.endAddr = some s.pc then some s.nextPc else s.endAddr }

end Sys2Proof.Machine
end

