-- ==== Sys2Proof/Machine/Cycle.lean ====
section
/-! DEFINITION. The part of a step before execute (spec/40_step_cycle.md R80 to R82): the status, the end-of-program test,
the fetch and the decode. -/

namespace Sys2Proof.Machine

/-- What the front of a step comes to: an instruction to execute, or the outcome of the whole step. -/
inductive Front where
  | execute (i : Instr)
  | stop (o : Host.Outcome State Fault Refusal)

/-- Fetch and decode (R82): a decode failure is a fatal halt. -/
def fetchDecode (s : State) : Front :=
  match decodeWith s.cfg.opmap s.fetchWord with
  | .instr i => .execute i
  | .invalidCategory => .stop (.next (s.halt .invalidCategory))
  | .invalidOpcode => .stop (.next (s.halt .invalidOpcode))

/-- No step in Halted (R80), then the end-of-program test before the fetch, by equality only (R81), then fetch and decode.
With no program loaded there is no END_ADDR and no run (70_reset_and_hazards.md R205). -/
def frontOfStep (s : State) : Front :=
  match s.status with
  | .halted _ => .stop (.fault .noStepWhenHalted)
  | .running =>
    match s.endAddr with
    | none => .stop (.refused .noProgramLoaded)
    | some endAddr => if s.pc = endAddr then .stop (.next (s.halt .pcExhausted)) else fetchDecode s

end Sys2Proof.Machine
end

