-- ==== Sys2Proof/Machine/Operands.lean ====
section
/-! DEFINITION. The operand forms of the ISA: register, the two memory addressing modes (spec/41_memory_ops.md R105), and
the pc-relative target (spec/43_control.md R120). Immediates are converted by the decoder (spec/30_encoding.md R61). -/

namespace Sys2Proof.Machine

/-- Register indirect: all 32 bits of `x[raddr]`, unsigned, no scaling, no displacement (41_memory_ops.md R101, R102). -/
def addrIndirect (s : State) (raddr : Reg) : Word := s.reg raddr

/-- 16-bit absolute: the zero-extended field as it is (R103, R104). -/
def addrDirect (addr : Word) : Word := addr

/-- The target of a taken transfer, `wrap(u(pc) + s(off))`, relative to the control instruction itself (43_control.md
R120). -/
def transferTarget (s : State) (off : Word) : Word := wrap (uval s.pc + sval off)

/-- A target must be a multiple of 4 (R121, the spec's decision D9). -/
def misaligned (t : Word) : Bool := decide (uval t % 4 ≠ 0)

end Sys2Proof.Machine
end

