-- ==== Sys2Proof/Machine/Flags.lean ====
section
/-! DEFINITION. The core has no flags (spec/10_state.md R21). What stands in their place: the truth value a comparison
writes to a general register, and the test of a general register by the conditional control instructions. -/

namespace Sys2Proof.Machine

/-- The full word 1 for true, 0 for false (spec/46_comparison.md, common part). -/
def truthWord (b : Bool) : Word := if b then 1 else 0

/-- A condition register is true exactly when it is not 0 (spec/43_control.md R126). -/
def conditionHolds (v : Word) : Bool := decide (v ≠ 0)

end Sys2Proof.Machine
end

