-- ==== Sys2Proof/Machine/MemoryOps.lean ====
section
/-! DEFINITION. The Memory category (spec/41_memory_ops.md R100 to R105). -/

namespace Sys2Proof.Machine

/-- Write a register and continue: the end of every instruction whose one effect is a register (40_step_cycle.md R83). -/
def writeResult (rd : Reg) (v : Word) (s : State) : Host.Outcome State Fault Refusal :=
  retire s (.continue_ (s.setReg rd v))

/-- Store a word and continue. -/
def writeCell (a v : Word) (s : State) : Host.Outcome State Fault Refusal :=
  retire s (.continue_ (s.store a v))

/-- `x[rd] <- sext_16(imm16)` (R100). -/
def execLoadimm (rd : Reg) (imm : Word) (s : State) : Host.Outcome State Fault Refusal :=
  writeResult rd imm s

/-- `x[rd] <- MemRead(x[raddr], 4)` (R101). -/
def execLoadind (rd raddr : Reg) (s : State) : Host.Outcome State Fault Refusal :=
  writeResult rd (s.mem.read (addrIndirect s raddr)) s

/-- `MemWrite(x[raddr], 4, x[rs])` (R102). -/
def execStoreind (raddr rs : Reg) (s : State) : Host.Outcome State Fault Refusal :=
  writeCell (addrIndirect s raddr) (s.reg rs) s

/-- `MemWrite(zext_16(addr16), 4, x[rs])` (R103). -/
def execStoredir (addr : Word) (rs : Reg) (s : State) : Host.Outcome State Fault Refusal :=
  writeCell (addrDirect addr) (s.reg rs) s

/-- `x[rd] <- MemRead(zext_16(addr16), 4)` (R104). -/
def execLoaddir (rd : Reg) (addr : Word) (s : State) : Host.Outcome State Fault Refusal :=
  writeResult rd (s.mem.read (addrDirect addr)) s

end Sys2Proof.Machine
end

