-- ==== Sys2Proof/Machine/Arithmetic.lean ====
section
/-! DEFINITION. The Arithmetic category (spec/42_arithmetic.md R110 to R115). The left operand is `x[rs1]`, the right one
`x[rs2]` (the spec's decision D5). -/

namespace Sys2Proof.Machine

/-- `wrap(u(a) + u(b))` (R110). -/
def aluAdd (a b : Word) : Word := wrap (uval a + uval b)

/-- `wrap(u(a) - u(b))` (R111). -/
def aluSub (a b : Word) : Word := wrap ((uval a : Int) - uval b)

/-- `wrap(u(a) * u(b))` (R112). -/
def aluMul (a b : Word) : Word := wrap (uval a * uval b)

/-- `wrap(trunc(s(n) / s(d)))`, the signed quotient rounded toward zero, for a divisor that is not 0 (R113, the spec's
decision D11). -/
def aluQuotient (n d : Word) : Word := wrap ((sval n).tdiv (sval d))

/-- The quotient, or none where the division raises: a zero divisor under the default DIV0_POLICY (R113, R114). -/
def aluDiv (p : Div0Policy) (n d : Word) : Option Word :=
  if sval d = 0 then
    match p with
    | .fatal => none
    | .value q => some q
  else some (aluQuotient n d)

/-- R110. -/
def execAdd (rd rs1 rs2 : Reg) (s : State) : Host.Outcome State Fault Refusal :=
  writeResult rd (aluAdd (s.reg rs1) (s.reg rs2)) s

/-- R111. -/
def execSub (rd rs1 rs2 : Reg) (s : State) : Host.Outcome State Fault Refusal :=
  writeResult rd (aluSub (s.reg rs1) (s.reg rs2)) s

/-- R112. -/
def execMul (rd rs1 rs2 : Reg) (s : State) : Host.Outcome State Fault Refusal :=
  writeResult rd (aluMul (s.reg rs1) (s.reg rs2)) s

/-- R113, R114: the quotient, or the fatal condition DivisionByZero with `x[rd]` not written. -/
def execDiv (rd rs1 rs2 : Reg) (s : State) : Host.Outcome State Fault Refusal :=
  match aluDiv s.cfg.div0 (s.reg rs1) (s.reg rs2) with
  | some q => writeResult rd q s
  | none => retire s (.halted .divisionByZero)

end Sys2Proof.Machine
end

