-- ==== Sys2Proof/Machine/Comparison.lean ====
section
/-! DEFINITION. The Comparison category (spec/46_comparison.md R160 to R165): signed, on the exact integers. The left
operand is `x[rs1]`, the right one `x[rs2]` (the spec's decision D5). -/

namespace Sys2Proof.Machine

/-- R160. -/
def execLt (rd rs1 rs2 : Reg) (s : State) : Host.Outcome State Fault Refusal :=
  writeResult rd (truthWord (decide (sval (s.reg rs1) < sval (s.reg rs2)))) s

/-- R161. -/
def execLte (rd rs1 rs2 : Reg) (s : State) : Host.Outcome State Fault Refusal :=
  writeResult rd (truthWord (decide (sval (s.reg rs1) ≤ sval (s.reg rs2)))) s

/-- R162. -/
def execGt (rd rs1 rs2 : Reg) (s : State) : Host.Outcome State Fault Refusal :=
  writeResult rd (truthWord (decide (sval (s.reg rs1) > sval (s.reg rs2)))) s

/-- R163. -/
def execGte (rd rs1 rs2 : Reg) (s : State) : Host.Outcome State Fault Refusal :=
  writeResult rd (truthWord (decide (sval (s.reg rs1) ≥ sval (s.reg rs2)))) s

/-- R164. -/
def execEq (rd rs1 rs2 : Reg) (s : State) : Host.Outcome State Fault Refusal :=
  writeResult rd (truthWord (decide (s.reg rs1 = s.reg rs2))) s

end Sys2Proof.Machine
end

