-- ==== Sys2Proof/Machine/Control.lean ====
section
/-! DEFINITION. The Control category (spec/43_control.md R120 to R134). A jump saves nothing, a branch is a call. `pc` is
the address of the control instruction itself. -/

namespace Sys2Proof.Machine

/-- A taken jump by `off` (R120, R121): the target, or MisalignedTarget. -/
def takeJump (s : State) (off : Word) : StepResult :=
  if misaligned (transferTarget s off) then .halted .misalignedTarget
  else .jumped s (transferTarget s off)

/-- A taken branch by `off` (R129): push `wrap(u(pc) + 4)`, then the target. MisalignedTarget is tested before
ReturnStackOverflow (60_exceptions.md R180), and either leaves the stack as it was. -/
def takeBranch (s : State) (off : Word) : StepResult :=
  if misaligned (transferTarget s off) then .halted .misalignedTarget
  else if s.stackFull then .halted .returnStackOverflow
  else .jumped (s.push s.nextPc) (transferTarget s off)

/-- The gate of a conditional transfer (R126): the result if the condition register is true, else nothing. -/
def gated (s : State) (rcond : Reg) (taken : StepResult) : StepResult :=
  if conditionHolds (s.reg rcond) then taken else .continue_ s

/-- R122. -/
def execJump (off : Word) (s : State) : Host.Outcome State Fault Refusal :=
  retire s (takeJump s off)

/-- R123: the register holds a pc-relative offset. -/
def execJumpd (rs : Reg) (s : State) : Host.Outcome State Fault Refusal :=
  retire s (takeJump s (s.reg rs))

/-- R124. -/
def execJumpif (rcond : Reg) (off : Word) (s : State) : Host.Outcome State Fault Refusal :=
  retire s (gated s rcond (takeJump s off))

/-- R125. -/
def execJumpifd (rcond rs : Reg) (s : State) : Host.Outcome State Fault Refusal :=
  retire s (gated s rcond (takeJump s (s.reg rs)))

/-- R127: pop into the pc with no 4 added, or, on an empty stack, nothing. -/
def execRet (s : State) : Host.Outcome State Fault Refusal :=
  match s.rstack with
  | [] => retire s (.continue_ s)
  | top :: rest => retire s (.jumped { s with rstack := rest } top)

/-- R128: the run ends with success, and the pc stays. -/
def execEnd (s : State) : Host.Outcome State Fault Refusal :=
  retire s (.halted .ended)

/-- R129. -/
def execBranch (off : Word) (s : State) : Host.Outcome State Fault Refusal :=
  retire s (takeBranch s off)

/-- R130. -/
def execBranchif (rcond : Reg) (off : Word) (s : State) : Host.Outcome State Fault Refusal :=
  retire s (gated s rcond (takeBranch s off))

/-- R131. -/
def execBranchifd (rcond rs : Reg) (s : State) : Host.Outcome State Fault Refusal :=
  retire s (gated s rcond (takeBranch s (s.reg rs)))

end Sys2Proof.Machine
end

