-- ==== Sys2Proof/Machine/Logical.lean ====
section
/-! DEFINITION. The Logical category (spec/44_logical.md R140 to R144), over full 32-bit words.
PRESUMED (notes/assumptions/13.md): the standard Boolean meanings, 93_implementation_defined.md G1. -/

namespace Sys2Proof.Machine

/-- `x[rd] <- x[rs1] & x[rs2]` (R140). -/
def execAnd (rd rs1 rs2 : Reg) (s : State) : Host.Outcome State Fault Refusal :=
  writeResult rd (s.reg rs1 &&& s.reg rs2) s

/-- `x[rd] <- x[rs1] | x[rs2]` (R141). -/
def execOr (rd rs1 rs2 : Reg) (s : State) : Host.Outcome State Fault Refusal :=
  writeResult rd (s.reg rs1 ||| s.reg rs2) s

/-- `x[rd] <- ~(x[rs1] & x[rs2])` (R142). -/
def execNand (rd rs1 rs2 : Reg) (s : State) : Host.Outcome State Fault Refusal :=
  writeResult rd (~~~(s.reg rs1 &&& s.reg rs2)) s

/-- `x[rd] <- ~(x[rs1] | x[rs2])` (R143). -/
def execNor (rd rs1 rs2 : Reg) (s : State) : Host.Outcome State Fault Refusal :=
  writeResult rd (~~~(s.reg rs1 ||| s.reg rs2)) s

/-- `x[rd] <- x[rs1] ^ x[rs2]` (R144). -/
def execXor (rd rs1 rs2 : Reg) (s : State) : Host.Outcome State Fault Refusal :=
  writeResult rd (s.reg rs1 ^^^ s.reg rs2) s

end Sys2Proof.Machine
end

