-- ==== Sys2Proof/Machine/Shift.lean ====
section
/-! DEFINITION. The Shift category (spec/45_shift.md R150 to R152). The value shifted is `x[rs1]`, the amount the whole
register `x[rs2]`, not masked (the spec's decision D4). -/

namespace Sys2Proof.Machine

/-- A logical shift by an exact amount: `wrap(u(v) * 2^e)` or `wrap(floor(u(v) / 2^e))` (R150, R151). -/
def shiftBy (dir : ShiftDir) (v : Word) (e : Nat) : Word :=
  match dir with
  | .left => wrap (uval v * 2 ^ e : Nat)
  | .right => wrap (uval v / 2 ^ e : Nat)

/-- The signed reading of the amount clamped to 0..31 (R152). -/
def clampAmount (a : Word) : Nat :=
  if sval a < 0 then 0 else if 31 < sval a then 31 else uval a

/-- `SHIFT_OOR(dir, v, a)` under a policy (R152, 93_implementation_defined.md U2, notes/assumptions/3.md). -/
def shiftOutOfRange (p : ShiftOor) (dir : ShiftDir) (v a : Word) : Word :=
  match p with
  | .clamp => shiftBy dir v (clampAmount a)
  | .zero => 0
  | .modulo32 => shiftBy dir v (uval a % 32)
  | .free k => Config.freeShift k dir v a

/-- A shift by the amount `a`: exact for 0..31, SHIFT_OOR outside (R150, R151). -/
def aluShift (p : ShiftOor) (dir : ShiftDir) (v a : Word) : Word :=
  if uval a ≤ 31 then shiftBy dir v (uval a) else shiftOutOfRange p dir v a

/-- R150. -/
def execLsl (rd rs1 rs2 : Reg) (s : State) : Host.Outcome State Fault Refusal :=
  writeResult rd (aluShift s.cfg.shiftOor .left (s.reg rs1) (s.reg rs2)) s

/-- R151. -/
def execLsr (rd rs1 rs2 : Reg) (s : State) : Host.Outcome State Fault Refusal :=
  writeResult rd (aluShift s.cfg.shiftOor .right (s.reg rs1) (s.reg rs2)) s

end Sys2Proof.Machine
end

