-- ==== Sys2Proof/Machine/Dispatch.lean ====
section
/-! DEFINITION. The meaning of every instruction, one arm per constructor of Instr (spec/40_step_cycle.md R83). -/

namespace Sys2Proof.Machine

def exec (i : Instr) (s : State) : Host.Outcome State Fault Refusal :=
  match i with
  -- Memory
  | .loadimm rd imm => Sys2Proof.Machine.execLoadimm rd imm s
  | .loadind rd raddr => Sys2Proof.Machine.execLoadind rd raddr s
  | .storeind raddr rs => Sys2Proof.Machine.execStoreind raddr rs s
  | .storedir addr rs => Sys2Proof.Machine.execStoredir addr rs s
  | .loaddir rd addr => Sys2Proof.Machine.execLoaddir rd addr s
  -- Arithmetic
  | .add rd rs1 rs2 => Sys2Proof.Machine.execAdd rd rs1 rs2 s
  | .sub rd rs1 rs2 => Sys2Proof.Machine.execSub rd rs1 rs2 s
  | .mul rd rs1 rs2 => Sys2Proof.Machine.execMul rd rs1 rs2 s
  | .div rd rs1 rs2 => Sys2Proof.Machine.execDiv rd rs1 rs2 s
  -- Control
  | .jump off => Sys2Proof.Machine.execJump off s
  | .jumpd rs => Sys2Proof.Machine.execJumpd rs s
  | .jumpif rcond off => Sys2Proof.Machine.execJumpif rcond off s
  | .jumpifd rcond rs => Sys2Proof.Machine.execJumpifd rcond rs s
  | .ret => Sys2Proof.Machine.execRet s
  | .end_ => Sys2Proof.Machine.execEnd s
  | .branch off => Sys2Proof.Machine.execBranch off s
  | .branchif rcond off => Sys2Proof.Machine.execBranchif rcond off s
  | .branchifd rcond rs => Sys2Proof.Machine.execBranchifd rcond rs s
  -- Logical
  | .and rd rs1 rs2 => Sys2Proof.Machine.execAnd rd rs1 rs2 s
  | .or rd rs1 rs2 => Sys2Proof.Machine.execOr rd rs1 rs2 s
  | .nand rd rs1 rs2 => Sys2Proof.Machine.execNand rd rs1 rs2 s
  | .nor rd rs1 rs2 => Sys2Proof.Machine.execNor rd rs1 rs2 s
  | .xor rd rs1 rs2 => Sys2Proof.Machine.execXor rd rs1 rs2 s
  -- Shift
  | .lsl rd rs1 rs2 => Sys2Proof.Machine.execLsl rd rs1 rs2 s
  | .lsr rd rs1 rs2 => Sys2Proof.Machine.execLsr rd rs1 rs2 s
  -- Comparison
  | .lt rd rs1 rs2 => Sys2Proof.Machine.execLt rd rs1 rs2 s
  | .lte rd rs1 rs2 => Sys2Proof.Machine.execLte rd rs1 rs2 s
  | .gt rd rs1 rs2 => Sys2Proof.Machine.execGt rd rs1 rs2 s
  | .gte rd rs1 rs2 => Sys2Proof.Machine.execGte rd rs1 rs2 s
  | .eq rd rs1 rs2 => Sys2Proof.Machine.execEq rd rs1 rs2 s

end Sys2Proof.Machine
end

