-- ==== Sys2Proof/Machine/Step.lean ====
section
/-! DEFINITION. One step of the core (spec/40_step_cycle.md R80). -/

namespace Sys2Proof.Machine

/-- One pass of the loop: the front of the step, then execute. The pc update stands in each meaning (`retire`). -/
def step (s : State) : Host.Outcome State Fault Refusal :=
  match frontOfStep s with
  | .execute i => exec i s
  | .stop o => o

/-- The state in which the next step fetches the table word `w` of `nbits` bits. -/
def State.withFetchWord (s : State) (nbits w : Nat) : State := s.placeWord (BitVec.ofNat 32 (w % 2 ^ nbits))

end Sys2Proof.Machine
end

