-- ==== Sys2Proof/Machine/Boot.lean ====
section
/-! DEFINITION. The contract between loader and core (spec/70_reset_and_hazards.md R202 to R206): the state in which the
first step of a run begins, made from the bytes of a program file. The loader itself is outside the core (spec/00_scope.md
R5). -/

namespace Sys2Proof.Machine

/-- `b0<<24 | b1<<16 | b2<<8 | b3` (R203). -/
def wordOfBytes (b0 b1 b2 b3 : Byte) : Word := b0 ++ b1 ++ b2 ++ b3

/-- The words of a program file, or none where its length is not a multiple of 4 (R203, R205). -/
def fileWords : List Byte → Option (List Word)
  | [] => some []
  | b0 :: b1 :: b2 :: b3 :: rest => (fileWords rest).map (wordOfBytes b0 b1 b2 b3 :: ·)
  | [_] => none
  | [_, _] => none
  | [_, _, _] => none

/-- The cells of a program placed from address `k` on, four apart, in canonical form (R203). -/
def imageFrom : Nat → List Word → List (Nat × Word)
  | _, [] => []
  | k, w :: rest => if w = unlistedCell then imageFrom (k + 4) rest else (k, w) :: imageFrom (k + 4) rest

/-- The reset state with a program of words loaded: the image MEM0, END_ADDR the address of the last loaded word (R200,
R203, R204), and the parameters of `c`. -/
def State.bootWords (c : Config) (words : List Word) : State :=
  { State.reset with
    mem := ⟨imageFrom 0 words⟩
    endAddr := some (wrap (4 * ((words.length : Int) - 1)))
    cfg := c }

/-- The state in which the first step of a run begins, for the bytes of a program file. A file that is not a positive whole
number of words, or has more than 2^30 of them, is refused (R205, R206, 92_eei_decisions.md D15). -/
def State.boot (c : Config) (file : List Byte) : Host.Outcome State Fault Refusal :=
  match fileWords file with
  | none => .refused .partialWordInProgramFile
  | some [] => .refused .emptyProgramFile
  | some (w :: rest) =>
    if (w :: rest).length ≤ 2 ^ 30 then .next (State.bootWords c (w :: rest)) else .refused .programTooLarge

end Sys2Proof.Machine
end

