-- ==== Sys2Proof/Safety.lean ====
section
/-! DEFINITION. What counts as a safe state and a safe run: the invariant of spec/10_state.md R27 with the bounds that the
model's data carry, and the failure of a run (spec/60_exceptions.md R178). -/

namespace Sys2Proof.Machine

/-- The address is a multiple of 4. -/
abbrev Aligned (a : Word) : Prop := a.toNat % 4 = 0

/-- What holds in every reachable state. -/
structure State.Inv (s : State) : Prop where
  /-- 10_state.md R27 (b). -/
  pcAligned : Aligned s.pc
  /-- 10_state.md R27 (c). -/
  stackAligned : ∀ a ∈ s.rstack, Aligned a
  /-- 10_state.md R27 (d): the listed addresses are 32-bit, and the list is in its one canonical form. -/
  memCanonical : s.mem.wf = true
  /-- 10_state.md R18: a finite RS_DEPTH is never exceeded. -/
  stackBounded : ∀ d, s.cfg.rsDepth = some d → s.rstack.length ≤ d
  /-- 60_exceptions.md R176: a failure has recorded the pc, which has not moved, and the word at it. -/
  failureRecorded : ∀ c, s.status = .halted c → c.isFailure = true → s.diagPc = s.pc ∧ s.diagWord = s.fetchWord

/-- The run has ended with failure (60_exceptions.md R178). -/
def Status.isFailure : Status → Bool
  | .running => false
  | .halted c => c.isFailure

/-- A program is loaded and the run goes on: the states in which the spec defines a step (40_step_cycle.md R80). -/
structure State.CanStep (s : State) : Prop where
  running : s.status = .running
  loaded : s.endAddr.isSome = true

/-- `k` steps from `s` come to no failure and no stop before the run ends. -/
def safeFor : Nat → State → Bool
  | 0, s => !s.status.isFailure
  | k + 1, s =>
    !s.status.isFailure &&
      match s.status with
      | .halted _ => true
      | .running =>
        match step s with
        | .next t => safeFor k t
        | .fault _ => false
        | .refused _ => false

/-! ### What an instruction may write (10_state.md R13, 20_memory.md R34) -/

/-- The register the instruction writes, if it writes one (10_state.md R13). -/
def destination : Instr → Option Reg
  | .loadimm rd _ => some rd
  | .loadind rd _ => some rd
  | .storeind _ _ => none
  | .storedir _ _ => none
  | .loaddir rd _ => some rd
  | .add rd _ _ => some rd
  | .sub rd _ _ => some rd
  | .mul rd _ _ => some rd
  | .div rd _ _ => some rd
  | .jump _ => none
  | .jumpd _ => none
  | .jumpif _ _ => none
  | .jumpifd _ _ => none
  | .ret => none
  | .end_ => none
  | .branch _ => none
  | .branchif _ _ => none
  | .branchifd _ _ => none
  | .and rd _ _ => some rd
  | .or rd _ _ => some rd
  | .nand rd _ _ => some rd
  | .nor rd _ _ => some rd
  | .xor rd _ _ => some rd
  | .lsl rd _ _ => some rd
  | .lsr rd _ _ => some rd
  | .lt rd _ _ => some rd
  | .lte rd _ _ => some rd
  | .gt rd _ _ => some rd
  | .gte rd _ _ => some rd
  | .eq rd _ _ => some rd

/-- The nine instructions of the Control category (43_control.md). -/
def isControl : Instr → Bool
  | .loadimm _ _ => false
  | .loadind _ _ => false
  | .storeind _ _ => false
  | .storedir _ _ => false
  | .loaddir _ _ => false
  | .add _ _ _ => false
  | .sub _ _ _ => false
  | .mul _ _ _ => false
  | .div _ _ _ => false
  | .jump _ => true
  | .jumpd _ => true
  | .jumpif _ _ => true
  | .jumpifd _ _ => true
  | .ret => true
  | .end_ => true
  | .branch _ => true
  | .branchif _ _ => true
  | .branchifd _ _ => true
  | .and _ _ _ => false
  | .or _ _ _ => false
  | .nand _ _ _ => false
  | .nor _ _ _ => false
  | .xor _ _ _ => false
  | .lsl _ _ _ => false
  | .lsr _ _ _ => false
  | .lt _ _ _ => false
  | .lte _ _ _ => false
  | .gt _ _ _ => false
  | .gte _ _ _ => false
  | .eq _ _ _ => false

end Sys2Proof.Machine
end

