-- ==== Sys2Proof/Certificates/Slice0/Obligations.lean ====
section
/-! DEFINITION. The statements for the provers. Each docstring names the rule of spec/ it formalises, or, where a clause
rests on a decision of the spec or of the model, that decision. -/

open Sys2Proof Sys2Proof.Machine

/-! ### Encoding -/

/-- Words written out from the layouts of spec/30_encoding.md and the default OPMAP (the spec's decision D1), one for each
category, decode to what spec/95_test_vectors.md says. -/
def Obligations.WrittenWordsDecode : Prop :=
  decode 0x0003FFFF = .instr (.loadimm 3 0xFFFFFFFF) ∧
  decode 0x010307AB = .instr (.loadind 7 3) ∧
  decode 0x0302FFFF = .instr (.storedir 0x0000FFFF 2) ∧
  decode 0x13030102 = .instr (.div 3 1 2) ∧
  decode 0x22FFF801 = .instr (.jumpif 1 0xFFFFFFF8) ∧
  decode 0x28090004 = .instr (.branchifd 4 9) ∧
  decode 0x32030102 = .instr (.nand 3 1 2) ∧
  decode 0x40020103 = .instr (.lsl 2 1 3) ∧
  decode 0x54030102 = .instr (.eq 3 1 2) ∧
  decode 0x29000000 = .invalidOpcode ∧
  decode 0x60000000 = .invalidCategory

/-- Format R (30_encoding.md R52; the shifts by the spec's decision D4): under every OPMAP, a word whose pair (cat, op) the
map gives to one of the sixteen three-register instructions decodes to it with rd at 23:16, rs1 at 15:8, rs2 at 7:0. -/
def Obligations.ThreeRegisterWordsDecode : Prop :=
  ∀ (m : OpMap) (cat op : BitVec 4) (rd rs1 rs2 : Reg),
    ∀ p ∈ ([(.add, .add), (.sub, .sub), (.mul, .mul), (.div, .div), (.and, .and), (.or, .or), (.nand, .nand),
        (.nor, .nor), (.xor, .xor), (.lsl, .lsl), (.lsr, .lsr), (.lt, .lt), (.lte, .lte), (.gt, .gt), (.gte, .gte),
        (.eq, .eq)] : List (Mnemonic × (Reg → Reg → Reg → Instr))),
      m.lookup cat op = some p.1 →
        decodeWith m (cat ++ op ++ regBits rd ++ regBits rs1 ++ regBits rs2) = .instr (p.2 rd rs1 rs2)

/-- Formats LI, MI, J, CI and CD (30_encoding.md R53, R54, R56, R57, R58), under every OPMAP, with every value of the unused
bits. -/
def Obligations.ImmediateIndirectAndBranchWordsDecode : Prop :=
  ∀ (m : OpMap) (cat op : BitVec 4) (a b : Reg) (imm16 : BitVec 16) (off24 : BitVec 24) (unused : BitVec 8),
    (m.lookup cat op = some .loadimm →
      decodeWith m (cat ++ op ++ regBits a ++ imm16) = .instr (.loadimm a (imm16.signExtend 32))) ∧
    (m.lookup cat op = some .loadind →
      decodeWith m (cat ++ op ++ regBits a ++ regBits b ++ unused) = .instr (.loadind b a)) ∧
    (m.lookup cat op = some .storeind →
      decodeWith m (cat ++ op ++ regBits a ++ regBits b ++ unused) = .instr (.storeind a b)) ∧
    (m.lookup cat op = some .jump → decodeWith m (cat ++ op ++ off24) = .instr (.jump (off24.signExtend 32))) ∧
    (m.lookup cat op = some .branch → decodeWith m (cat ++ op ++ off24) = .instr (.branch (off24.signExtend 32))) ∧
    (m.lookup cat op = some .jumpif →
      decodeWith m (cat ++ op ++ imm16 ++ regBits b) = .instr (.jumpif b (imm16.signExtend 32))) ∧
    (m.lookup cat op = some .branchif →
      decodeWith m (cat ++ op ++ imm16 ++ regBits b) = .instr (.branchif b (imm16.signExtend 32))) ∧
    (m.lookup cat op = some .jumpifd →
      decodeWith m (cat ++ op ++ regBits a ++ unused ++ regBits b) = .instr (.jumpifd b a)) ∧
    (m.lookup cat op = some .branchifd →
      decodeWith m (cat ++ op ++ regBits a ++ unused ++ regBits b) = .instr (.branchifd b a))

/-- Formats MD, JD and N, under every OPMAP, with every value of the unused bits. They rest on the spec's own decisions D7
(addr16 is zero-extended), D3 (the place of jumpd's register) and D6 (ret and end have no operands). -/
def Obligations.DirectAndOperandlessWordsDecode : Prop :=
  ∀ (m : OpMap) (cat op : BitVec 4) (a : Reg) (addr16 unused16 : BitVec 16) (unused24 : BitVec 24),
    (m.lookup cat op = some .storedir →
      decodeWith m (cat ++ op ++ regBits a ++ addr16) = .instr (.storedir (addr16.setWidth 32) a)) ∧
    (m.lookup cat op = some .loaddir →
      decodeWith m (cat ++ op ++ regBits a ++ addr16) = .instr (.loaddir a (addr16.setWidth 32))) ∧
    (m.lookup cat op = some .jumpd → decodeWith m (cat ++ op ++ regBits a ++ unused16) = .instr (.jumpd a)) ∧
    (m.lookup cat op = some .ret → decodeWith m (cat ++ op ++ unused24) = .instr .ret) ∧
    (m.lookup cat op = some .end_ → decodeWith m (cat ++ op ++ unused24) = .instr .end_)

/-- The decode function of 30_encoding.md R62 under every OPMAP: InvalidCategory exactly when no entry has the word's
category, InvalidOpcode exactly when some entry has it and none has the pair, and otherwise the descriptor of the entry. -/
def Obligations.DecodeFailsOnlyOutsideTheMap : Prop :=
  ∀ (m : OpMap) (w : Word),
    (decodeWith m w = .invalidCategory ↔ ∀ r ∈ m, r.cat ≠ w.extractLsb' 28 4) ∧
    (decodeWith m w = .invalidOpcode ↔
      (∃ r ∈ m, r.cat = w.extractLsb' 28 4) ∧
        ∀ r ∈ m, ¬(r.cat = w.extractLsb' 28 4 ∧ r.op = w.extractLsb' 24 4)) ∧
    (m.wellFormed = true → ∀ r ∈ m, r.cat = w.extractLsb' 28 4 → r.op = w.extractLsb' 24 4 →
      decodeWith m w = .instr (assemble r.mnemonic w))

/-- The reserved space of the default OPMAP (30_encoding.md R64, derived there from the numbers of the spec's decision D1):
categories 6 to 15 are InvalidCategory, and in categories 0 to 5 the opcodes from 5, 4, 9, 5, 2, 5 on are InvalidOpcode, and
every other word is an instruction. -/
def Obligations.ReservedSpaceOfTheDefaultMap : Prop :=
  ∀ (w : Word) (cat op : Nat), cat = (w.extractLsb' 28 4).toNat → op = (w.extractLsb' 24 4).toNat →
    (decode w = .invalidCategory ↔ 6 ≤ cat) ∧
    (decode w = .invalidOpcode ↔
      (cat = 0 ∧ 5 ≤ op) ∨ (cat = 1 ∧ 4 ≤ op) ∨ (cat = 2 ∧ 9 ≤ op) ∨ (cat = 3 ∧ 5 ≤ op) ∨ (cat = 4 ∧ 2 ≤ op) ∨
        (cat = 5 ∧ 5 ≤ op)) ∧
    ((∃ i, decode w = .instr i) ↔
      (cat = 0 ∧ op < 5) ∨ (cat = 1 ∧ op < 4) ∨ (cat = 2 ∧ op < 9) ∨ (cat = 3 ∧ op < 5) ∨ (cat = 4 ∧ op < 2) ∨
        (cat = 5 ∧ op < 5))

/-- Two words that differ only in bits the format leaves unused are the same instruction, under every OPMAP (30_encoding.md
R63, the spec's decision D6). -/
def Obligations.UnusedBitsAreIgnored : Prop :=
  ∀ (m : OpMap) (w w' : Word) (i : Instr), decodeWith m w = .instr i →
    (w ^^^ w') &&& ~~~unusedBits i.mnemonic = 0 → decodeWith m w' = .instr i

/-- The round trip of 30_encoding.md R67, under every OPMAP: for every pair (cat, op) the map defines and all in-range
operands, with the unused bits arbitrary, the word decodes to the same instruction and operands. The encoder builds such a
word for every instruction a well-formed map gives a code, and the default map gives one to all. -/
def Obligations.EncodeThenDecodeIsIdentity : Prop :=
  ∀ (i : Instr), i.wellFormed = true →
    (∀ (m : OpMap) (cat op : BitVec 4) (pad : Word), m.lookup cat op = some i.mnemonic →
      decodeWith m ((cat ++ op ++ operandBits i) ||| (pad &&& unusedBits i.mnemonic)) = .instr i) ∧
    (∀ (m : OpMap), m.wellFormed = true → (∃ r ∈ m, r.mnemonic = i.mnemonic) →
      ∃ w, encodeWith m i = some w ∧ ∀ pad : Word, decodeWith m (w ||| (pad &&& unusedBits i.mnemonic)) = .instr i) ∧
    (∃ w, encode i = some w ∧ decode w = .instr i)

/-- The other direction, under the default OPMAP: whatever the decoder reads from a word is well formed, and encoding it
gives the word back with its unused bits cleared. So each word has one meaning. -/
def Obligations.DecodeThenEncodeGivesTheWordBack : Prop :=
  ∀ (w : Word) (i : Instr), decode w = .instr i →
    i.wellFormed = true ∧ encode i = some (w &&& ~~~unusedBits i.mnemonic)

/-! ### The step -/

/-- The step runs the decoded instruction (40_step_cycle.md R80, R83): with a program running, the pc not at END_ADDR and
the cell at the pc decoding to `i`, the step is exec of `i` at that state, and nothing is added around it. -/
def Obligations.StepExecutesTheDecodedInstruction : Prop :=
  ∀ (s : State) (e : Word) (i : Instr), s.status = .running → s.endAddr = some e → s.pc ≠ e →
    decodeWith s.cfg.opmap (s.mem.read s.pc) = .instr i → step s = exec i s

/-- The end-of-program test (40_step_cycle.md R81, the spec's decision D14): it comes before fetch and decode, so whatever
the cell holds the run halts with success, and nothing else changes. -/
def Obligations.EndOfProgramTestComesFirst : Prop :=
  ∀ (s : State), s.status = .running → s.endAddr = some s.pc →
    step s = .next { s with status := .halted .pcExhausted }

/-- A decode failure (40_step_cycle.md R82): the word fetched is the current content of the cell at the pc, and on failure
the step records pc and word, halts, and changes no register, no memory cell, no return-stack entry and not the pc. -/
def Obligations.DecodeFailureChangesNothingElse : Prop :=
  ∀ (s : State) (e : Word), s.status = .running → s.endAddr = some e → s.pc ≠ e →
    (decodeWith s.cfg.opmap (s.mem.read s.pc) = .invalidCategory →
      step s = .next { s with
        status := .halted .invalidCategory, diagPc := s.pc, diagWord := s.mem.read s.pc }) ∧
    (decodeWith s.cfg.opmap (s.mem.read s.pc) = .invalidOpcode →
      step s = .next { s with
        status := .halted .invalidOpcode, diagPc := s.pc, diagWord := s.mem.read s.pc }) ∧
    (∀ i, decodeWith s.cfg.opmap (s.mem.read s.pc) = .instr i → step s = exec i s)

/-- InvalidCategory and InvalidOpcode (60_exceptions.md R170, R171), for every OPMAP by its entries and for the default one
by its numbers: a fatal failure that records the pc and the raw word. -/
def Obligations.UnknownCategoryOrOpcodeIsFatal : Prop :=
  ∀ (s : State) (e : Word) (cat op : BitVec 4), s.status = .running → s.endAddr = some e → s.pc ≠ e →
    cat = (s.mem.read s.pc).extractLsb' 28 4 → op = (s.mem.read s.pc).extractLsb' 24 4 →
    HaltCause.invalidCategory.isFailure = true ∧ HaltCause.invalidOpcode.isFailure = true ∧
    ((∀ r ∈ s.cfg.opmap, r.cat ≠ cat) ∨ (s.cfg.opmap = OpMap.default ∧ 6 ≤ cat.toNat) →
      step s = .next { s with
        status := .halted .invalidCategory, diagPc := s.pc, diagWord := s.mem.read s.pc }) ∧
    (((∃ r ∈ s.cfg.opmap, r.cat = cat) ∧ ∀ r ∈ s.cfg.opmap, ¬(r.cat = cat ∧ r.op = op)) ∨
        (s.cfg.opmap = OpMap.default ∧
          ((cat = 0 ∧ 5 ≤ op.toNat) ∨ (cat = 1 ∧ 4 ≤ op.toNat) ∨ (cat = 2 ∧ 9 ≤ op.toNat) ∨ (cat = 3 ∧ 5 ≤ op.toNat) ∨
            (cat = 4 ∧ 2 ≤ op.toNat) ∨ (cat = 5 ∧ 5 ≤ op.toNat))) →
      step s = .next { s with
        status := .halted .invalidOpcode, diagPc := s.pc, diagWord := s.mem.read s.pc })

/-- Where there is no step: in Halted (10_state.md R19), and without a program, which has no END_ADDR and no run
(70_reset_and_hazards.md R205). The names of the fault and of the refusal are the model's choice, notes/assumptions/10.md
and 6.md. -/
def Obligations.NoStepWhenHaltedOrWithoutProgram : Prop :=
  ∀ (s : State),
    (∀ c, s.status = .halted c → step s = .fault .noStepWhenHalted) ∧
    (s.status = .running → s.endAddr = none → step s = .refused .noProgramLoaded)

/-- One step retires one instruction or halts (40_step_cycle.md R90): with a program running, the step always answers a next
state, whatever the memory holds, and whatever the instruction, and exec does so in every state. -/
def Obligations.RunningMachineAlwaysSteps : Prop :=
  (∀ (s : State), s.CanStep → ∃ t, step s = .next t) ∧ ∀ (i : Instr) (s : State), ∃ t, exec i s = .next t

/-- Halts are precise (60_exceptions.md R176): a step that halts changes the status, and for a failure diag_pc and
diag_word, and nothing else. -/
def Obligations.HaltsArePrecise : Prop :=
  ∀ (s t : State) (c : HaltCause), step s = .next t → t.status = .halted c →
    t = { s with
      status := .halted c
      diagPc := if c.isFailure then s.pc else s.diagPc
      diagWord := if c.isFailure then s.mem.read s.pc else s.diagWord }

/-- Each cause comes from where 60_exceptions.md R170 to R175 and R180 say, and from nowhere else. -/
def Obligations.EachHaltHasItsCause : Prop :=
  ∀ (s t : State) (c : HaltCause) (d : Decoded), d = decodeWith s.cfg.opmap (s.mem.read s.pc) →
    step s = .next t → t.status = .halted c →
    match c with
    | .pcExhausted => s.endAddr = some s.pc
    | .invalidCategory => s.endAddr ≠ some s.pc ∧ d = .invalidCategory
    | .invalidOpcode => s.endAddr ≠ some s.pc ∧ d = .invalidOpcode
    | .ended => s.endAddr ≠ some s.pc ∧ d = .instr .end_
    | .divisionByZero => s.endAddr ≠ some s.pc ∧ s.cfg.div0 = .fatal ∧
        ∃ rd rs1 rs2, d = .instr (.div rd rs1 rs2) ∧ s.reg rs2 = 0
    | .misalignedTarget => s.endAddr ≠ some s.pc ∧ ∃ off, ¬Aligned (s.pc + off) ∧
        (d = .instr (.jump off) ∨ d = .instr (.branch off) ∨
          (∃ rs, d = .instr (.jumpd rs) ∧ s.reg rs = off) ∨
          ∃ rcond, s.reg rcond ≠ 0 ∧
            (d = .instr (.jumpif rcond off) ∨ d = .instr (.branchif rcond off) ∨
              ∃ rs, s.reg rs = off ∧ (d = .instr (.jumpifd rcond rs) ∨ d = .instr (.branchifd rcond rs))))
    | .returnStackOverflow => s.endAddr ≠ some s.pc ∧ (∃ n, s.cfg.rsDepth = some n ∧ n ≤ s.rstack.length) ∧
        ∃ off, Aligned (s.pc + off) ∧
          (d = .instr (.branch off) ∨
            ∃ rcond, s.reg rcond ≠ 0 ∧
              (d = .instr (.branchif rcond off) ∨ ∃ rs, s.reg rs = off ∧ d = .instr (.branchifd rcond rs)))

/-- END_ADDR and the parameters are fixed for the run (00_scope.md R8, 70_reset_and_hazards.md R204). That State holds them
is the model's choice, notes/assumptions/1.md. -/
def Obligations.RunParametersNeverChange : Prop :=
  ∀ (s t : State), step s = .next t → t.endAddr = s.endAddr ∧ t.cfg = s.cfg

/-- No instruction can read the diagnostic outputs (10_state.md R22): two states that differ only in them have the same
outcome but for them, and where the step halts with failure not even there. -/
def Obligations.DiagnosticsAreNeverRead : Prop :=
  ∀ (s : State) (p w : Word),
    match step s with
    | .next t =>
      ∃ p' w', step { s with diagPc := p, diagWord := w } = .next { t with diagPc := p', diagWord := w' } ∧
        (t.status.isFailure = true → p' = t.diagPc ∧ w' = t.diagWord) ∧
        (t.status.isFailure = false → p' = p ∧ w' = w ∧ t.diagPc = s.diagPc ∧ t.diagWord = s.diagWord)
    | .fault f => step { s with diagPc := p, diagWord := w } = .fault f
    | .refused r => step { s with diagPc := p, diagWord := w } = .refused r

/-! ### The invariant, reset and boot -/

/-- Every step keeps the invariant of 10_state.md R27: the pc and every return-stack entry stay multiples of 4, the memory
keeps its canonical form, a finite RS_DEPTH is not exceeded, and a failure has recorded pc and word. -/
def Obligations.StepKeepsTheInvariant : Prop :=
  ∀ (s t : State), s.Inv → step s = .next t → t.Inv

/-- The reset state meets the invariant. -/
def Obligations.ResetMeetsTheInvariant : Prop := State.reset.Inv

/-- Every program that can be loaded starts in a state that meets the invariant, under every configuration. -/
def Obligations.BootMeetsTheInvariant : Prop :=
  ∀ (c : Config) (file : List Byte) (s : State), State.boot c file = .next s → s.Inv ∧ s.CanStep

/-- The values the spec gives for reset (10_state.md R25), with nothing loaded. The values of diag_pc and diag_word, and the
missing END_ADDR, are the model's choice (notes/assumptions/8.md, 6.md) and are not stated. -/
def Obligations.ResetValues : Prop :=
  (∀ r, State.reset.reg r = 0) ∧ State.reset.pc = 0 ∧ State.reset.rstack = [] ∧ State.reset.status = .running ∧
    (∀ a, State.reset.mem.read a = 0) ∧ State.reset.cfg = Config.default

/-- The state at the release of reset with a program of words loaded (70_reset_and_hazards.md R200): registers, pc and stack
as R25 says, the i-th word at address 4*i, and 0 in every other cell. -/
def Obligations.ResetWithProgram : Prop :=
  ∀ (c : Config) (words : List Word), words.length ≤ 2 ^ 30 → ∀ s, s = State.bootWords c words →
    (∀ r, s.reg r = 0) ∧ s.pc = 0 ∧ s.rstack = [] ∧ s.status = .running ∧ s.cfg = c ∧
    (∀ (i : Nat) (h : i < words.length), s.mem.read (BitVec.ofNat 32 (4 * i)) = words[i]) ∧
    (∀ a : Word, a.toNat % 4 ≠ 0 ∨ 4 * words.length ≤ a.toNat → s.mem.read a = 0)

/-- The memory image of a program file (70_reset_and_hazards.md R203): big-endian words at 4*i, every other cell 0. -/
def Obligations.ProgramFileImage : Prop :=
  ∀ (c : Config) (file : List Byte), file.length % 4 = 0 → 0 < file.length → file.length ≤ 2 ^ 32 →
    ∃ s, State.boot c file = .next s ∧
      (∀ (i : Nat) (h : 4 * i + 3 < file.length), s.mem.read (BitVec.ofNat 32 (4 * i)) =
        ((file[4 * i]).setWidth 32 <<< 24 ||| (file[4 * i + 1]).setWidth 32 <<< 16 |||
          (file[4 * i + 2]).setWidth 32 <<< 8 ||| (file[4 * i + 3]).setWidth 32)) ∧
      (∀ a : Word, a.toNat % 4 ≠ 0 ∨ file.length ≤ a.toNat → s.mem.read a = 0)

/-- The sentinel and the refused files (70_reset_and_hazards.md R204, R205, R206; the spec's decisions D14, D15): END_ADDR is
the address of the last loaded word, and a file that is empty, ends in part of a word, or is too large has no run. The
names of the refusals are the model's, notes/assumptions/14.md. -/
def Obligations.SentinelAndRefusedFiles : Prop :=
  ∀ (c : Config) (file : List Byte),
    (file.length % 4 = 0 → 0 < file.length → file.length ≤ 2 ^ 32 →
      ∃ s, State.boot c file = .next s ∧ s.endAddr = some (BitVec.ofNat 32 (file.length - 4))) ∧
    (file.length % 4 ≠ 0 → State.boot c file = .refused .partialWordInProgramFile) ∧
    (file = [] → State.boot c file = .refused .emptyProgramFile) ∧
    (file.length % 4 = 0 → 2 ^ 32 < file.length → State.boot c file = .refused .programTooLarge)

/-- The word w placed where the next step fetches runs in that step: the model's stand-in for a load from outside the
machine (notes/assumptions/7.md). -/
def Obligations.PlacedWordRunsNext : Prop :=
  ∀ (s : State) (nbits w : Nat) (i : Instr), s.mem.wf = true → s.cfg.opmap = OpMap.default →
    decodeTableWord nbits w = some i → step (s.withFetchWord nbits w) = exec i (s.withFetchWord nbits w)

/-! ### Memory and registers -/

/-- The memory (20_memory.md section with R31): a store then a load of the same address gives the stored value, every other
address is unchanged, and an address never written reads as 0. The canonical form, the premise and the clause that a write
keeps it, is the model's representation (DESIGN CHOICE, notes/assumptions/9.md), of which R31 says nothing. -/
def Obligations.MemoryIsOneWordPerAddress : Prop :=
  (∀ (m : Memory) (a v : Word), m.wf = true →
    (m.write a v).read a = v ∧ (∀ b, b ≠ a → (m.write a v).read b = m.read b) ∧ (m.write a v).wf = true) ∧
  ∀ a, (Memory.mk []).read a = 0

/-- The canonical form makes a memory the function it stands for: two memories in it that read alike everywhere are equal
(the model's representation, notes/assumptions/9.md). -/
def Obligations.CanonicalMemoriesThatReadAlikeAreEqual : Prop :=
  ∀ (m m' : Memory), m.wf = true → m'.wf = true → (∀ a, m.read a = m'.read a) → m = m'

/-- A store is seen by the fetch of the very next step, even at the next instruction, and never by its own step
(20_memory.md R36, R41, 70_reset_and_hazards.md R211). -/
def Obligations.StoreIsSeenByTheNextFetch : Prop :=
  ∀ (s : State) (e : Word), s.mem.wf = true → s.status = .running → s.endAddr = some e → s.pc ≠ e →
    (∀ raddr rs, decodeWith s.cfg.opmap (s.mem.read s.pc) = .instr (.storeind raddr rs) →
      ∃ t, step s = .next t ∧ t.pc = s.pc + 4 ∧
        t.fetchWord = if addrIndirect s raddr = s.pc + 4 then s.reg rs else s.mem.read (s.pc + 4)) ∧
    (∀ addr rs, decodeWith s.cfg.opmap (s.mem.read s.pc) = .instr (.storedir addr rs) →
      ∃ t, step s = .next t ∧ t.pc = s.pc + 4 ∧
        t.fetchWord = if addrDirect addr = s.pc + 4 then s.reg rs else s.mem.read (s.pc + 4))

/-- The register file (10_state.md R10, R11): a write to any register, register 0 like the others, is read back, and no
other register changes. -/
def Obligations.EveryRegisterIsOrdinaryStorage : Prop :=
  ∀ (s : State) (r : Reg) (v : Word),
    (s.setReg r v).reg r = v ∧ ∀ q, q ≠ r → (s.setReg r v).reg q = s.reg q

/-! ### Memory category -/

/-- `loadimm` (41_memory_ops.md R100): encoding in the default OPMAP, effect, and the values it can produce. The
header numbers are those the rule gives, the default OPMAP (the spec's decision D1). -/
def Obligations.LoadimmWritesTheSignExtendedImmediate : Prop :=
  (∀ (rd : Reg) (imm16 : BitVec 16),
    decode (0x00#8 ++ regBits rd ++ imm16) = .instr (.loadimm rd (imm16.signExtend 32)) ∧
    ∀ s : State, exec (.loadimm rd (imm16.signExtend 32)) s =
      .next { s.setReg rd (imm16.signExtend 32) with pc := s.pc + 4 }) ∧
  ∀ v : Word, (∃ imm16 : BitVec 16, imm16.signExtend 32 = v) ↔ v.toNat ≤ 0x7FFF ∨ 0xFFFF8000 ≤ v.toNat

/-- `loadind` (41_memory_ops.md R101): the cell at the register's address, whatever the address, read in the state
before the step. The header numbers are those the rule gives, the default OPMAP (the spec's decision D1). -/
def Obligations.LoadindReadsItsCell : Prop :=
  ∀ (s : State) (rd raddr : Reg) (unused : BitVec 8),
    decode (0x01#8 ++ regBits raddr ++ regBits rd ++ unused) = .instr (.loadind rd raddr) ∧
    exec (.loadind rd raddr) s = .next { s.setReg rd (s.mem.read (s.reg raddr)) with pc := s.pc + 4 }

/-- `loaddir` (41_memory_ops.md R104; the zero extension is the spec's decision D7): the cell at `zext_16(addr16)`.
The header numbers are those the rule gives, the default OPMAP (the spec's decision D1). -/
def Obligations.LoaddirReadsItsCell : Prop :=
  ∀ (s : State) (rd : Reg) (addr16 : BitVec 16),
    decode (0x04#8 ++ regBits rd ++ addr16) = .instr (.loaddir rd (addr16.setWidth 32)) ∧
    exec (.loaddir rd (addr16.setWidth 32)) s =
      .next { s.setReg rd (s.mem.read (addr16.setWidth 32)) with pc := s.pc + 4 }

/-- `storeind` (41_memory_ops.md R102): the cell at `x[raddr]` holds `x[rs]`, every other cell is unchanged, and so is
everything but the pc. The header numbers are those the rule gives, the default OPMAP (the spec's decision D1). -/
def Obligations.StoreindWritesOneCell : Prop :=
  ∀ (s : State) (raddr rs : Reg) (unused : BitVec 8),
    decode (0x02#8 ++ regBits raddr ++ regBits rs ++ unused) = .instr (.storeind raddr rs) ∧
    exec (.storeind raddr rs) s =
      .next { s with mem := s.mem.write (addrIndirect s raddr) (s.reg rs), pc := s.pc + 4 } ∧
    addrIndirect s raddr = s.reg raddr ∧
    (s.mem.wf = true → (s.mem.write (addrIndirect s raddr) (s.reg rs)).read (addrIndirect s raddr) = s.reg rs) ∧
    ∀ a, a ≠ addrIndirect s raddr → (s.mem.write (addrIndirect s raddr) (s.reg rs)).read a = s.mem.read a

/-- `storedir` (41_memory_ops.md R103; the zero extension is the spec's decision D7): the cell at `zext_16(addr16)`
holds `x[rs]`, every other cell is unchanged, and so is everything but the pc. The header numbers are those the rule
gives, the default OPMAP (the spec's decision D1). -/
def Obligations.StoredirWritesOneCell : Prop :=
  ∀ (s : State) (rs : Reg) (addr16 : BitVec 16) (a0 : Word), a0 = addrDirect (addr16.setWidth 32) →
    decode (0x03#8 ++ regBits rs ++ addr16) = .instr (.storedir (addr16.setWidth 32) rs) ∧
    exec (.storedir (addr16.setWidth 32) rs) s = .next { s with mem := s.mem.write a0 (s.reg rs), pc := s.pc + 4 } ∧
    a0.toNat = addr16.toNat ∧
    (s.mem.wf = true → (s.mem.write a0 (s.reg rs)).read a0 = s.reg rs) ∧
    ∀ a, a ≠ a0 → (s.mem.write a0 (s.reg rs)).read a = s.mem.read a

/-! ### Arithmetic category -/

/-- `add`, `sub`, `mul` (42_arithmetic.md R110, R111, R112): modulo 2^32, no condition raised. The header numbers are
those the rules give, the default OPMAP (the spec's decision D1). -/
def Obligations.AddSubMulWrap : Prop :=
  ∀ (s : State) (rd rs1 rs2 : Reg),
    decode (0x10#8 ++ regBits rd ++ regBits rs1 ++ regBits rs2) = .instr (.add rd rs1 rs2) ∧
    exec (.add rd rs1 rs2) s = .next { s.setReg rd (s.reg rs1 + s.reg rs2) with pc := s.pc + 4 } ∧
    decode (0x11#8 ++ regBits rd ++ regBits rs1 ++ regBits rs2) = .instr (.sub rd rs1 rs2) ∧
    exec (.sub rd rs1 rs2) s = .next { s.setReg rd (s.reg rs1 - s.reg rs2) with pc := s.pc + 4 } ∧
    decode (0x12#8 ++ regBits rd ++ regBits rs1 ++ regBits rs2) = .instr (.mul rd rs1 rs2) ∧
    exec (.mul rd rs1 rs2) s = .next { s.setReg rd (s.reg rs1 * s.reg rs2) with pc := s.pc + 4 }

/-- `div` by a divisor that is not 0 (42_arithmetic.md R113; signed operands and the wrapped overflow are the spec's
decision D11): the exact quotient rounded toward zero, but -2^31 / -1, which wraps to 0x80000000. The header numbers
are those the rule gives, the default OPMAP (the spec's decision D1). -/
def Obligations.DivTruncatesTowardZero : Prop :=
  ∀ (s : State) (rd rs1 rs2 : Reg), s.reg rs2 ≠ 0 →
    decode (0x13#8 ++ regBits rd ++ regBits rs1 ++ regBits rs2) = .instr (.div rd rs1 rs2) ∧
    ∃ q : Word, exec (.div rd rs1 rs2) s = .next { s.setReg rd q with pc := s.pc + 4 } ∧
      (s.reg rs1 = 0x80000000 ∧ s.reg rs2 = 0xFFFFFFFF → q = 0x80000000) ∧
      (¬(s.reg rs1 = 0x80000000 ∧ s.reg rs2 = 0xFFFFFFFF) →
        q.toInt = (s.reg rs1).toInt.tdiv (s.reg rs2).toInt)

/-- `div` by 0 under the default DIV0_POLICY (42_arithmetic.md R114, 60_exceptions.md R172, the spec's decision D12): the
fatal condition DivisionByZero, whatever the dividend, with nothing else changed. -/
def Obligations.DivByZeroIsFatalByDefault : Prop :=
  ∀ (s : State) (rd rs1 rs2 : Reg), s.cfg.div0 = .fatal → s.reg rs2 = 0 →
    exec (.div rd rs1 rs2) s = .next { s with
      status := .halted .divisionByZero, diagPc := s.pc, diagWord := s.mem.read s.pc }

/-- `div` by 0 under a DIV0_POLICY that gives a value (93_implementation_defined.md U1): that value, and the run goes on. -/
def Obligations.DivByZeroGivesTheConfiguredValue : Prop :=
  ∀ (s : State) (rd rs1 rs2 : Reg) (q : Word), s.cfg.div0 = .value q → s.reg rs2 = 0 →
    exec (.div rd rs1 rs2) s = .next { s.setReg rd q with pc := s.pc + 4 }

/-! ### Control category -/

/-- `jump` (43_control.md R122): to the pc plus the sign-extended offset, modulo 2^32, or MisalignedTarget with the pc
unchanged. The header numbers are those the rule gives, the default OPMAP (the spec's decision D1). -/
def Obligations.JumpGoesToPcPlusOffset : Prop :=
  ∀ (s : State) (off24 : BitVec 24) (off : Word), off = off24.signExtend 32 →
    decode (0x20#8 ++ off24) = .instr (.jump off) ∧
    (Aligned (s.pc + off) → exec (.jump off) s = .next { s with pc := s.pc + off }) ∧
    (¬Aligned (s.pc + off) → exec (.jump off) s = .next { s with
      status := .halted .misalignedTarget, diagPc := s.pc, diagWord := s.mem.read s.pc })

/-- `jumpd` (43_control.md R123; the place of its register is the spec's decision D3): the register is a pc-relative
offset. The header numbers are those the rule gives, the default OPMAP (the spec's decision D1). -/
def Obligations.JumpdGoesToPcPlusRegister : Prop :=
  ∀ (s : State) (rs : Reg) (unused : BitVec 16),
    decode (0x21#8 ++ regBits rs ++ unused) = .instr (.jumpd rs) ∧
    (Aligned (s.pc + s.reg rs) → exec (.jumpd rs) s = .next { s with pc := s.pc + s.reg rs }) ∧
    (¬Aligned (s.pc + s.reg rs) → exec (.jumpd rs) s = .next { s with
      status := .halted .misalignedTarget, diagPc := s.pc, diagWord := s.mem.read s.pc })

/-- `jumpif` and `jumpifd` (43_control.md R124, R125, R126): taken exactly when `x[rcond]` is not 0, and the alignment
test is made only then. The header numbers are those the rules give, the default OPMAP (the spec's decision D1). -/
def Obligations.ConditionalJumpsTestTheRegister : Prop :=
  ∀ (s : State) (rcond rs : Reg) (imm16 : BitVec 16) (unused : BitVec 8) (off : Word), off = imm16.signExtend 32 →
    decode (0x22#8 ++ imm16 ++ regBits rcond) = .instr (.jumpif rcond off) ∧
    decode (0x23#8 ++ regBits rs ++ unused ++ regBits rcond) = .instr (.jumpifd rcond rs) ∧
    (s.reg rcond = 0 → exec (.jumpif rcond off) s = .next { s with pc := s.pc + 4 } ∧
      exec (.jumpifd rcond rs) s = .next { s with pc := s.pc + 4 }) ∧
    (s.reg rcond ≠ 0 →
      (Aligned (s.pc + off) → exec (.jumpif rcond off) s = .next { s with pc := s.pc + off }) ∧
      (¬Aligned (s.pc + off) → exec (.jumpif rcond off) s = .next { s with
        status := .halted .misalignedTarget, diagPc := s.pc, diagWord := s.mem.read s.pc }) ∧
      (Aligned (s.pc + s.reg rs) → exec (.jumpifd rcond rs) s = .next { s with pc := s.pc + s.reg rs }) ∧
      (¬Aligned (s.pc + s.reg rs) → exec (.jumpifd rcond rs) s = .next { s with
        status := .halted .misalignedTarget, diagPc := s.pc, diagWord := s.mem.read s.pc }))

/-- `ret` (43_control.md R127): the top of the return stack becomes the pc and no 4 is added. On an empty stack it
only advances the pc. The header numbers are those the rule gives, the default OPMAP (the spec's decision D1). -/
def Obligations.RetPopsIntoThePc : Prop :=
  ∀ (s : State) (unused : BitVec 24),
    decode (0x24#8 ++ unused) = .instr .ret ∧
    (∀ top rest, s.rstack = top :: rest → exec .ret s = .next { s with pc := top, rstack := rest }) ∧
    (s.rstack = [] → exec .ret s = .next { s with pc := s.pc + 4 })

/-- `end` (43_control.md R128): the run stops with success, the pc stays, nothing else changes. The header numbers are
those the rule gives, the default OPMAP (the spec's decision D1). -/
def Obligations.EndHaltsWithSuccess : Prop :=
  ∀ (s : State) (unused : BitVec 24),
    decode (0x25#8 ++ unused) = .instr .end_ ∧
    exec .end_ s = .next { s with status := .halted .ended } ∧ HaltCause.ended.isFailure = false

/-- `branch` (43_control.md R129): push pc + 4, then jump. A misaligned target pushes nothing, and with a finite
RS_DEPTH a full stack is the fatal ReturnStackOverflow, tested after the alignment (60_exceptions.md R180, the spec's
decisions D18 and D21). The header numbers are those the rule gives, the default OPMAP (the spec's decision D1). -/
def Obligations.BranchPushesThenJumps : Prop :=
  ∀ (s : State) (off24 : BitVec 24) (off : Word), off = off24.signExtend 32 →
    decode (0x26#8 ++ off24) = .instr (.branch off) ∧
    (¬Aligned (s.pc + off) → exec (.branch off) s = .next { s with
      status := .halted .misalignedTarget, diagPc := s.pc, diagWord := s.mem.read s.pc }) ∧
    (Aligned (s.pc + off) → (∀ d, s.cfg.rsDepth = some d → s.rstack.length < d) →
      exec (.branch off) s = .next { s with pc := s.pc + off, rstack := (s.pc + 4) :: s.rstack }) ∧
    (Aligned (s.pc + off) → ∀ d, s.cfg.rsDepth = some d → d ≤ s.rstack.length →
      exec (.branch off) s = .next { s with
        status := .halted .returnStackOverflow, diagPc := s.pc, diagWord := s.mem.read s.pc })

/-- `branchif` (43_control.md R130): the push is gated together with the jump. The header numbers are those the rule
gives, the default OPMAP (the spec's decision D1). -/
def Obligations.BranchifGatesThePushAndTheJump : Prop :=
  ∀ (s : State) (rcond : Reg) (imm16 : BitVec 16) (off : Word), off = imm16.signExtend 32 →
    decode (0x27#8 ++ imm16 ++ regBits rcond) = .instr (.branchif rcond off) ∧
    (s.reg rcond = 0 → exec (.branchif rcond off) s = .next { s with pc := s.pc + 4 }) ∧
    (s.reg rcond ≠ 0 →
      (¬Aligned (s.pc + off) → exec (.branchif rcond off) s = .next { s with
        status := .halted .misalignedTarget, diagPc := s.pc, diagWord := s.mem.read s.pc }) ∧
      (Aligned (s.pc + off) → (∀ d, s.cfg.rsDepth = some d → s.rstack.length < d) →
        exec (.branchif rcond off) s = .next { s with pc := s.pc + off, rstack := (s.pc + 4) :: s.rstack }) ∧
      (Aligned (s.pc + off) → ∀ d, s.cfg.rsDepth = some d → d ≤ s.rstack.length →
        exec (.branchif rcond off) s = .next { s with
          status := .halted .returnStackOverflow, diagPc := s.pc, diagWord := s.mem.read s.pc }))

/-- `branchifd` (43_control.md R131; that it exists is the spec's decision D2): the register form of the conditional
branch. The header numbers are those the rule gives, the default OPMAP (the spec's decision D1). -/
def Obligations.BranchifdGatesThePushAndTheJump : Prop :=
  ∀ (s : State) (rcond rs : Reg) (unused : BitVec 8) (off : Word), off = s.reg rs →
    decode (0x28#8 ++ regBits rs ++ unused ++ regBits rcond) = .instr (.branchifd rcond rs) ∧
    (s.reg rcond = 0 → exec (.branchifd rcond rs) s = .next { s with pc := s.pc + 4 }) ∧
    (s.reg rcond ≠ 0 →
      (¬Aligned (s.pc + off) → exec (.branchifd rcond rs) s = .next { s with
        status := .halted .misalignedTarget, diagPc := s.pc, diagWord := s.mem.read s.pc }) ∧
      (Aligned (s.pc + off) → (∀ d, s.cfg.rsDepth = some d → s.rstack.length < d) →
        exec (.branchifd rcond rs) s = .next { s with pc := s.pc + off, rstack := (s.pc + 4) :: s.rstack }) ∧
      (Aligned (s.pc + off) → ∀ d, s.cfg.rsDepth = some d → d ≤ s.rstack.length →
        exec (.branchifd rcond rs) s = .next { s with
          status := .halted .returnStackOverflow, diagPc := s.pc, diagWord := s.mem.read s.pc }))

/-- Branch then return (43_control.md R132): whatever a subroutine did, if it leaves the return stack as the branch left
it, its `ret` goes to the instruction after the branch and gives the caller's stack back. -/
def Obligations.BranchThenReturn : Prop :=
  ∀ (i : Instr) (s t u : State), exec i s = .next t → t.rstack ≠ s.rstack → i ≠ .ret → u.rstack = t.rstack →
    exec .ret u = .next { u with pc := s.pc + 4, rstack := s.rstack }

/-- The return stack (10_state.md R17): only `ret` pops, only a taken `branch`, `branchif` or `branchifd` pushes, and what is
pushed is pc + 4. -/
def Obligations.OnlyRetPopsOnlyBranchesPush : Prop :=
  ∀ (i : Instr) (s t : State), exec i s = .next t → t.rstack ≠ s.rstack →
    (i = .ret ∧ s.rstack = t.pc :: t.rstack) ∨
    (t.rstack = (s.pc + 4) :: s.rstack ∧
      ((∃ off, i = .branch off) ∨
        ∃ rcond, s.reg rcond ≠ 0 ∧ ((∃ off, i = .branchif rcond off) ∨ ∃ rs, i = .branchifd rcond rs)))

/-! ### Logical category -/

/-- `and`, `or`, `nand`, `nor`, `xor` (44_logical.md R140 to R144): each of the 32 result bits is the named Boolean
function of the two operand bits at its position. The header numbers are those the rules give, the default OPMAP (the
spec's decision D1). -/
def Obligations.LogicalOperationsActBitwise : Prop :=
  ∀ (s : State) (rd rs1 rs2 : Reg),
    ∀ p ∈ ([(0x30, .and, fun a b => a && b), (0x31, .or, fun a b => a || b), (0x32, .nand, fun a b => !(a && b)),
        (0x33, .nor, fun a b => !(a || b)), (0x34, .xor, fun a b => a != b)] :
        List (BitVec 8 × (Reg → Reg → Reg → Instr) × (Bool → Bool → Bool))),
      decode (p.1 ++ regBits rd ++ regBits rs1 ++ regBits rs2) = .instr (p.2.1 rd rs1 rs2) ∧
      ∃ v : Word, exec (p.2.1 rd rs1 rs2) s = .next { s.setReg rd v with pc := s.pc + 4 } ∧
        ∀ k < 32, v.getLsbD k = p.2.2 ((s.reg rs1).getLsbD k) ((s.reg rs2).getLsbD k)

/-! ### Shift category -/

/-- `lsl` and `lsr` (45_shift.md sections with R150, R151): the exact logical shift for an amount in 0..31, and SHIFT_OOR of
the direction, the value and the amount outside. That the shifts have format R, with the value in rs1 and the amount in rs2,
is the spec's decision D4 (notes/assumptions/12.md). The form of SHIFT_OOR, `shiftOutOfRange` of a policy, is the model's
(DESIGN CHOICE, notes/assumptions/3.md). The header numbers are those the rules give, the default OPMAP (the spec's decision
D1, notes/assumptions/2.md). -/
def Obligations.ShiftsByTheWholeRegister : Prop :=
  ∀ (s : State) (rd rs1 rs2 : Reg) (v a : Word), v = s.reg rs1 → a = s.reg rs2 →
    decode (0x40#8 ++ regBits rd ++ regBits rs1 ++ regBits rs2) = .instr (.lsl rd rs1 rs2) ∧
    decode (0x41#8 ++ regBits rd ++ regBits rs1 ++ regBits rs2) = .instr (.lsr rd rs1 rs2) ∧
    (a.toNat ≤ 31 →
      exec (.lsl rd rs1 rs2) s = .next { s.setReg rd (v <<< a.toNat) with pc := s.pc + 4 } ∧
      exec (.lsr rd rs1 rs2) s = .next { s.setReg rd (v >>> a.toNat) with pc := s.pc + 4 }) ∧
    (31 < a.toNat →
      exec (.lsl rd rs1 rs2) s =
        .next { s.setReg rd (shiftOutOfRange s.cfg.shiftOor .left v a) with pc := s.pc + 4 } ∧
      exec (.lsr rd rs1 rs2) s =
        .next { s.setReg rd (shiftOutOfRange s.cfg.shiftOor .right v a) with pc := s.pc + 4 })

/-- SHIFT_OOR (45_shift.md R152, the spec's decision D13, and the alternatives of 93_implementation_defined.md U2): the
default clamps the signed reading of the amount to 0..31, and the other policies give 0 or shift by the amount modulo 32.
The policies' names are the model's, notes/assumptions/3.md. -/
def Obligations.ShiftPoliciesOutsideTheRange : Prop :=
  ∀ (v a : Word), 31 < a.toNat →
    (a.toInt < 0 → shiftOutOfRange .clamp .left v a = v ∧ shiftOutOfRange .clamp .right v a = v) ∧
    (0 ≤ a.toInt → shiftOutOfRange .clamp .left v a = v <<< 31 ∧ shiftOutOfRange .clamp .right v a = v >>> 31) ∧
    (∀ dir, shiftOutOfRange .zero dir v a = 0) ∧
    shiftOutOfRange .modulo32 .left v a = v <<< (a.toNat % 32) ∧
    shiftOutOfRange .modulo32 .right v a = v >>> (a.toNat % 32)

/-! ### Comparison category -/

/-- `lt`, `lte`, `gt`, `gte`, `eq` (46_comparison.md R160 to R164): 1 where the relation holds of the signed readings,
else 0. The header numbers are those the rules give, the default OPMAP (the spec's decision D1). -/
def Obligations.ComparisonsAreSigned : Prop :=
  ∀ (s : State) (rd rs1 rs2 : Reg) (a b : Int), a = (s.reg rs1).toInt → b = (s.reg rs2).toInt →
    decode (0x50#8 ++ regBits rd ++ regBits rs1 ++ regBits rs2) = .instr (.lt rd rs1 rs2) ∧
    exec (.lt rd rs1 rs2) s = .next { s.setReg rd (if a < b then 1 else 0) with pc := s.pc + 4 } ∧
    decode (0x51#8 ++ regBits rd ++ regBits rs1 ++ regBits rs2) = .instr (.lte rd rs1 rs2) ∧
    exec (.lte rd rs1 rs2) s = .next { s.setReg rd (if a ≤ b then 1 else 0) with pc := s.pc + 4 } ∧
    decode (0x52#8 ++ regBits rd ++ regBits rs1 ++ regBits rs2) = .instr (.gt rd rs1 rs2) ∧
    exec (.gt rd rs1 rs2) s = .next { s.setReg rd (if b < a then 1 else 0) with pc := s.pc + 4 } ∧
    decode (0x53#8 ++ regBits rd ++ regBits rs1 ++ regBits rs2) = .instr (.gte rd rs1 rs2) ∧
    exec (.gte rd rs1 rs2) s = .next { s.setReg rd (if b ≤ a then 1 else 0) with pc := s.pc + 4 } ∧
    decode (0x54#8 ++ regBits rd ++ regBits rs1 ++ regBits rs2) = .instr (.eq rd rs1 rs2) ∧
    exec (.eq rd rs1 rs2) s = .next { s.setReg rd (if a = b then 1 else 0) with pc := s.pc + 4 }

/-- The relations among the comparisons (46_comparison.md R165, derived there): exactly one of `lt`, `eq`, `gt` writes 1,
`lte` writes the or of `lt` and `eq`, `gte` that of `gt` and `eq`, and `gt`, `gte` are `lt`, `lte` with the operands
exchanged. -/
def Obligations.ComparisonsAgreeWithEachOther : Prop :=
  ∀ (s : State) (rd rs1 rs2 : Reg), ∃ l e g : Word,
    exec (.lt rd rs1 rs2) s = .next { s.setReg rd l with pc := s.pc + 4 } ∧
    exec (.eq rd rs1 rs2) s = .next { s.setReg rd e with pc := s.pc + 4 } ∧
    exec (.gt rd rs1 rs2) s = .next { s.setReg rd g with pc := s.pc + 4 } ∧
    ((l = 1 ∧ e = 0 ∧ g = 0) ∨ (l = 0 ∧ e = 1 ∧ g = 0) ∨ (l = 0 ∧ e = 0 ∧ g = 1)) ∧
    exec (.lte rd rs1 rs2) s = .next { s.setReg rd (l ||| e) with pc := s.pc + 4 } ∧
    exec (.gte rd rs1 rs2) s = .next { s.setReg rd (g ||| e) with pc := s.pc + 4 } ∧
    exec (.gt rd rs1 rs2) s = exec (.lt rd rs2 rs1) s ∧ exec (.gte rd rs1 rs2) s = exec (.lte rd rs2 rs1) s

/-! ### Frames -/

/-- The frame of the instructions that write a register (10_state.md R13, 20_memory.md R34): no register but
the destination changes, no cell, no return-stack entry, neither END_ADDR nor a parameter. The run goes on at pc + 4 with
the diagnostics as they were, but for a `div` that raises, which leaves every register and the pc as they were. -/
def Obligations.RegisterWritersFrame : Prop :=
  ∀ (i : Instr) (s t : State) (rd : Reg), destination i = some rd → exec i s = .next t →
    (∀ r, r ≠ rd → t.reg r = s.reg r) ∧ (∀ a, t.mem.read a = s.mem.read a) ∧ t.rstack = s.rstack ∧
    t.endAddr = s.endAddr ∧ t.cfg = s.cfg ∧
    ((t.pc = s.pc + 4 ∧ t.status = s.status ∧ t.diagPc = s.diagPc ∧ t.diagWord = s.diagWord) ∨
      (t.regs = s.regs ∧ t.pc = s.pc ∧ t.status = .halted .divisionByZero ∧ t.diagPc = s.pc ∧
        t.diagWord = s.mem.read s.pc ∧ ∃ rs1 rs2, i = .div rd rs1 rs2 ∧ s.reg rs2 = 0 ∧ s.cfg.div0 = .fatal))

/-- The frame of the stores (10_state.md R13, 20_memory.md R33, R34): no register, no return-stack entry, no status, no
diagnostic, no parameter changes, and every cell but the one stored to reads as before. -/
def Obligations.StoresFrame : Prop :=
  ∀ (i : Instr) (s t : State) (addr : Word) (raddr rs : Reg), exec i s = .next t →
    (i = .storeind raddr rs ∧ addr = addrIndirect s raddr) ∨ (∃ a, i = .storedir a rs ∧ addr = addrDirect a) →
    t.regs = s.regs ∧ t.rstack = s.rstack ∧ t.status = s.status ∧ t.diagPc = s.diagPc ∧ t.diagWord = s.diagWord ∧
    t.endAddr = s.endAddr ∧ t.cfg = s.cfg ∧ t.pc = s.pc + 4 ∧ ∀ a, a ≠ addr → t.mem.read a = s.mem.read a

/-- The frame of the Control category (43_control.md, common part): no register and no cell changes, neither END_ADDR nor a
parameter, and where the run goes on neither the status nor a diagnostic. -/
def Obligations.ControlFrame : Prop :=
  ∀ (i : Instr) (s t : State), isControl i = true → exec i s = .next t →
    t.regs = s.regs ∧ (∀ a, t.mem.read a = s.mem.read a) ∧ t.endAddr = s.endAddr ∧ t.cfg = s.cfg ∧
    ((t.status = s.status ∧ t.diagPc = s.diagPc ∧ t.diagWord = s.diagWord) ∨
      (∃ c, t.status = .halted c ∧ t.pc = s.pc ∧ t.rstack = s.rstack ∧
        t.diagPc = (if c.isFailure then s.pc else s.diagPc) ∧
        t.diagWord = if c.isFailure then s.mem.read s.pc else s.diagWord))

/-- Nothing but a store changes memory, in any step (20_memory.md R34, R37): a cell that reads otherwise after the step is
the one cell that the step's store instruction addressed, and holds the register it stored. -/
def Obligations.OnlyStoresChangeMemory : Prop :=
  ∀ (s t : State) (a : Word), s.mem.wf = true → step s = .next t → t.mem.read a ≠ s.mem.read a →
    ∃ rs, t.mem.read a = s.reg rs ∧
      ((∃ raddr, decodeWith s.cfg.opmap (s.mem.read s.pc) = .instr (.storeind raddr rs) ∧ a = addrIndirect s raddr) ∨
        ∃ addr, decodeWith s.cfg.opmap (s.mem.read s.pc) = .instr (.storedir addr rs) ∧ a = addrDirect addr)

/-- The halt codes and classes (60_exceptions.md R177, R178; the numbers are the spec's decision D17): Running is 0, the
seven causes 1 to 7, End and PcExhausted are the successes, and no two statuses share a code. -/
def Obligations.HaltCodesTellTheCausesApart : Prop :=
  Status.running.code = 0 ∧ (Status.halted .ended).code = 1 ∧ (Status.halted .pcExhausted).code = 2 ∧
  (Status.halted .invalidCategory).code = 3 ∧ (Status.halted .invalidOpcode).code = 4 ∧
  (Status.halted .divisionByZero).code = 5 ∧ (Status.halted .misalignedTarget).code = 6 ∧
  (Status.halted .returnStackOverflow).code = 7 ∧
  (∀ x y : Status, x.code = y.code → x = y) ∧ ∀ c : HaltCause, c.isFailure = false ↔ c = .ended ∨ c = .pcExhausted
end

