-- ==== Sys2Proof/Laws/Bits.lean ====
section
/-! SUPPORT. The fields of a word written as its parts side by side. -/

namespace Sys2Proof

/-- A slice that lies in the left part. -/
theorem extract_append_left {n m : Nat} (a : BitVec n) (b : BitVec m) (k len : Nat) :
    (a ++ b).extractLsb' (m + k) len = a.extractLsb' k len := by
  ext i hi
  simp only [BitVec.getElem_extractLsb', BitVec.getLsbD_append]
  rw [if_neg (by omega)]
  congr 1
  omega

/-- A slice that lies in the right part. -/
theorem extract_append_right {n m : Nat} (a : BitVec n) (b : BitVec m) {k len : Nat} (h : k + len ≤ m) :
    (a ++ b).extractLsb' k len = b.extractLsb' k len := by
  ext i hi
  simp only [BitVec.getElem_extractLsb', BitVec.getLsbD_append]
  rw [if_pos (by omega)]

theorem extract_whole {n : Nat} (a : BitVec n) : a.extractLsb' 0 n = a := by
  ext i hi
  simp

/-- Two parts: the left one. -/
theorem append_left {n m : Nat} (a : BitVec n) (b : BitVec m) : (a ++ b).extractLsb' m n = a :=
  (extract_append_left a b 0 n).trans (extract_whole a)

/-- Two parts: the right one. -/
theorem append_right {n m : Nat} (a : BitVec n) (b : BitVec m) : (a ++ b).extractLsb' 0 m = b :=
  (extract_append_right a b (by omega)).trans (extract_whole b)

/-- Three parts: the middle one. -/
theorem append_middle {n m k : Nat} (a : BitVec n) (b : BitVec m) (c : BitVec k) :
    (a ++ b ++ c).extractLsb' k m = b :=
  (extract_append_left (a ++ b) c 0 m).trans (append_right a b)

/-- Three parts: the left one. -/
theorem append_first {n m k : Nat} (a : BitVec n) (b : BitVec m) (c : BitVec k) :
    (a ++ b ++ c).extractLsb' (k + m) n = a :=
  (extract_append_left (a ++ b) c m n).trans (append_left a b)

/-- Four parts: the second one. -/
theorem append_second {n m k l : Nat} (a : BitVec n) (b : BitVec m) (c : BitVec k) (d : BitVec l) :
    (a ++ b ++ c ++ d).extractLsb' (l + k) m = b :=
  (extract_append_left (a ++ b ++ c) d k m).trans (append_middle a b c)

/-- Four parts: the first one. -/
theorem append_first_of_four {n m k l : Nat} (a : BitVec n) (b : BitVec m) (c : BitVec k) (d : BitVec l) :
    (a ++ b ++ c ++ d).extractLsb' (l + (k + m)) n = a :=
  (extract_append_left (a ++ b ++ c) d (k + m) n).trans (append_first a b c)

/-- Five parts: the second one. -/
theorem append_second_of_five {n m k l p : Nat} (a : BitVec n) (b : BitVec m) (c : BitVec k) (d : BitVec l)
    (e : BitVec p) : (a ++ b ++ c ++ d ++ e).extractLsb' (p + (l + k)) m = b :=
  (extract_append_left (a ++ b ++ c ++ d) e (l + k) m).trans (append_second a b c d)

/-- Five parts: the first one. -/
theorem append_first_of_five {n m k l p : Nat} (a : BitVec n) (b : BitVec m) (c : BitVec k) (d : BitVec l)
    (e : BitVec p) : (a ++ b ++ c ++ d ++ e).extractLsb' (p + (l + (k + m))) n = a :=
  (extract_append_left (a ++ b ++ c ++ d) e (l + (k + m)) n).trans (append_first_of_four a b c d)

/-- Five parts: the third one. -/
theorem append_third_of_five {n m k l p : Nat} (a : BitVec n) (b : BitVec m) (c : BitVec k) (d : BitVec l)
    (e : BitVec p) : (a ++ b ++ c ++ d ++ e).extractLsb' (p + l) k = c :=
  (extract_append_left (a ++ b ++ c ++ d) e l k).trans (append_middle (a ++ b) c d)

/-! ### The layouts of 30_encoding.md section 2 -/

/-- The header of every word (R51). -/
theorem header_fields (cat op : BitVec 4) (x : BitVec 24) :
    fieldCat (cat ++ op ++ x) = cat ∧ fieldOp (cat ++ op ++ x) = op :=
  ⟨append_first cat op x, append_middle cat op x⟩

/-- Three 8-bit fields (formats R, MI, CD). -/
theorem fields_of_8_8_8 (cat op : BitVec 4) (a b c : BitVec 8) :
    fieldCat (cat ++ op ++ a ++ b ++ c) = cat ∧ fieldOp (cat ++ op ++ a ++ b ++ c) = op ∧
    fieldHi (cat ++ op ++ a ++ b ++ c) = a.toFin ∧ fieldMid (cat ++ op ++ a ++ b ++ c) = b.toFin ∧
    fieldLo (cat ++ op ++ a ++ b ++ c) = c.toFin :=
  ⟨append_first_of_five cat op a b c, append_second_of_five cat op a b c,
    congrArg BitVec.toFin (append_third_of_five cat op a b c), congrArg BitVec.toFin (append_middle (cat ++ op ++ a) b c),
    congrArg BitVec.toFin (append_right (cat ++ op ++ a ++ b) c)⟩

/-- An 8-bit field, then a 16-bit one (formats LI, MD, JD). -/
theorem fields_of_8_16 (cat op : BitVec 4) (a : BitVec 8) (b : BitVec 16) :
    fieldCat (cat ++ op ++ a ++ b) = cat ∧ fieldOp (cat ++ op ++ a ++ b) = op ∧
    fieldHi (cat ++ op ++ a ++ b) = a.toFin ∧ fieldImmLI (cat ++ op ++ a ++ b) = b.signExtend 32 ∧
    fieldAddr16 (cat ++ op ++ a ++ b) = b.setWidth 32 :=
  ⟨append_first_of_four cat op a b, append_second cat op a b,
    congrArg BitVec.toFin (append_middle (cat ++ op) a b),
    congrArg (BitVec.signExtend 32) (append_right (cat ++ op ++ a) b),
    congrArg (BitVec.setWidth 32) (append_right (cat ++ op ++ a) b)⟩

/-- A 16-bit field, then an 8-bit one (format CI). -/
theorem fields_of_16_8 (cat op : BitVec 4) (a : BitVec 16) (b : BitVec 8) :
    fieldCat (cat ++ op ++ a ++ b) = cat ∧ fieldOp (cat ++ op ++ a ++ b) = op ∧
    fieldImmCI (cat ++ op ++ a ++ b) = a.signExtend 32 ∧ fieldLo (cat ++ op ++ a ++ b) = b.toFin :=
  ⟨append_first_of_four cat op a b, append_second cat op a b,
    congrArg (BitVec.signExtend 32) (append_middle (cat ++ op) a b),
    congrArg BitVec.toFin (append_right (cat ++ op ++ a) b)⟩

/-- One 24-bit field (formats J, N). -/
theorem fields_of_24 (cat op : BitVec 4) (a : BitVec 24) :
    fieldCat (cat ++ op ++ a) = cat ∧ fieldOp (cat ++ op ++ a) = op ∧
    fieldOffset24 (cat ++ op ++ a) = a.signExtend 32 :=
  ⟨append_first cat op a, append_middle cat op a,
    congrArg (BitVec.signExtend 32) (append_right (cat ++ op) a)⟩

@[simp] theorem regBits_toFin (r : Reg) : (regBits r).toFin = r := rfl

/-! ### The decoder on a pair the map defines -/

theorem hasCategory_of_lookup {cat op : BitVec 4} {mn : Mnemonic} :
    ∀ {m : OpMap}, m.lookup cat op = some mn → m.hasCategory cat = true
  | [], h => by simp [OpMap.lookup] at h
  | r :: rest, h => by
    unfold OpMap.lookup at h
    split at h
    · rename_i hr
      simp [OpMap.hasCategory, hr.1]
    · have := hasCategory_of_lookup (m := rest) h
      simp only [OpMap.hasCategory, List.any_cons, Bool.or_eq_true] at this ⊢
      exact .inr this

/-- The decoder assembles the instruction the map names (R62). -/
theorem decodeWith_of_lookup {m : OpMap} {w : Word} {mn : Mnemonic}
    (h : m.lookup (fieldCat w) (fieldOp w) = some mn) : decodeWith m w = .instr (assemble mn w) := by
  rw [decodeWith, if_pos (hasCategory_of_lookup h), h]

end Sys2Proof
end

