-- ==== Sys2Proof/Laws/Memory.lean ====
section
/-! SUPPORT. The laws of the sparse memory: every operation keeps the canonical form, and what a cell reads as after a
write. -/

namespace Sys2Proof.Machine

theorem cellsAbove_mono {k j : Nat} (h : j ≤ k) : ∀ {l : List (Nat × Word)}, cellsAbove k l = true → cellsAbove j l = true
  | [], _ => rfl
  | c :: rest, hl => by
    simp only [cellsAbove, Bool.and_eq_true, decide_eq_true_eq] at hl ⊢
    exact ⟨⟨⟨by omega, hl.1.1.2⟩, hl.1.2⟩, hl.2⟩

theorem cellsCanonical_of_above {k : Nat} : ∀ {l : List (Nat × Word)}, cellsAbove k l = true → cellsCanonical l = true
  | [], _ => rfl
  | c :: rest, hl => by
    simp only [cellsAbove, cellsCanonical, Bool.and_eq_true, decide_eq_true_eq] at hl ⊢
    exact ⟨⟨hl.1.1.2, hl.1.2⟩, hl.2⟩

theorem cellsRead_above {k j : Nat} (hj : j ≤ k) : ∀ {l : List (Nat × Word)}, cellsAbove k l = true → cellsRead l j = unlistedCell
  | [], _ => rfl
  | c :: rest, hl => by
    simp only [cellsAbove, Bool.and_eq_true, decide_eq_true_eq] at hl
    have hne : c.1 ≠ j := by omega
    rw [cellsRead, if_neg hne]
    exact cellsRead_above (by omega) hl.2

/-- A write at a key above the bound, below 2^32, keeps the list above the bound. -/
theorem cellsWrite_above {j k : Nat} {v : Word} (hjk : j < k) (hk : k < 2 ^ 32) :
    ∀ {l : List (Nat × Word)}, cellsAbove j l = true → cellsAbove j (cellsWrite l k v) = true := by
  intro l hl
  induction l generalizing j with
  | nil =>
    unfold cellsWrite
    split <;> simp_all [cellsAbove]
  | cons c rest ih =>
    simp only [cellsAbove, Bool.and_eq_true, decide_eq_true_eq] at hl
    obtain ⟨⟨⟨h1, h2⟩, h3⟩, h4⟩ := hl
    unfold cellsWrite
    split_ifs with hlt hv heq hv
    · simp [cellsAbove, *, -Nat.reducePow]
    · simp [cellsAbove, *, -Nat.reducePow]
    · exact cellsAbove_mono (by omega) h4
    · subst heq
      simp [cellsAbove, *, -Nat.reducePow]
    · simp only [cellsAbove, Bool.and_eq_true, decide_eq_true_eq]
      exact ⟨⟨⟨h1, h2⟩, h3⟩, ih (by omega) h4⟩

theorem cellsWrite_canonical {k : Nat} {v : Word} (hk : k < 2 ^ 32) :
    ∀ {l : List (Nat × Word)}, cellsCanonical l = true → cellsCanonical (cellsWrite l k v) = true
  | [], _ => by
    unfold cellsWrite
    split <;> simp_all [cellsCanonical, cellsAbove]
  | c :: rest, hl => by
    simp only [cellsCanonical, Bool.and_eq_true, decide_eq_true_eq] at hl
    obtain ⟨⟨h1, h2⟩, h3⟩ := hl
    unfold cellsWrite
    split_ifs with hlt hv heq hv
    · simp [cellsCanonical, *, -Nat.reducePow]
    · simp [cellsCanonical, cellsAbove, *, -Nat.reducePow]
    · exact cellsCanonical_of_above h3
    · subst heq
      simp [cellsCanonical, *, -Nat.reducePow]
    · simp only [cellsCanonical, Bool.and_eq_true, decide_eq_true_eq]
      exact ⟨⟨h1, h2⟩, cellsWrite_above (by omega) hk h3⟩

/-- Reading another key after a write, in any list. -/
theorem cellsRead_write_ne {k j : Nat} {v : Word} (h : j ≠ k) :
    ∀ (l : List (Nat × Word)), cellsRead (cellsWrite l k v) j = cellsRead l j
  | [] => by
    unfold cellsWrite
    split
    · rfl
    · simp [cellsRead, Ne.symm h]
  | c :: rest => by
    unfold cellsWrite
    split_ifs with hlt hv heq hv
    · rfl
    · simp [cellsRead, Ne.symm h]
    · subst heq
      simp [cellsRead, Ne.symm h]
    · subst heq
      simp [cellsRead, Ne.symm h]
    · simp only [cellsRead, cellsRead_write_ne h rest]

/-- Reading the key written, in a list above some bound. -/
theorem cellsRead_write_self_above {j k : Nat} {v : Word} :
    ∀ {l : List (Nat × Word)}, cellsAbove j l = true → cellsRead (cellsWrite l k v) k = v := by
  intro l hl
  induction l generalizing j with
  | nil =>
    unfold cellsWrite
    split <;> simp_all [cellsRead]
  | cons c rest ih =>
    simp only [cellsAbove, Bool.and_eq_true, decide_eq_true_eq] at hl
    obtain ⟨⟨⟨h1, h2⟩, h3⟩, h4⟩ := hl
    unfold cellsWrite
    split_ifs with hlt hv heq hv
    · rw [cellsRead, if_neg (by omega), cellsRead_above (by omega) h4, hv]
    · simp [cellsRead]
    · rw [cellsRead_above (by omega) h4, hv]
    · simp [cellsRead]
    · rw [cellsRead, if_neg (by omega), ih h4]

theorem cellsRead_write_self {k : Nat} {v : Word} :
    ∀ {l : List (Nat × Word)}, cellsCanonical l = true → cellsRead (cellsWrite l k v) k = v
  | [], _ => by
    unfold cellsWrite
    split <;> simp_all [cellsRead]
  | c :: rest, hl => by
    simp only [cellsCanonical, Bool.and_eq_true, decide_eq_true_eq] at hl
    unfold cellsWrite
    split_ifs with hlt hv heq hv
    · rw [cellsRead, if_neg (by omega), cellsRead_above (by omega) hl.2, hv]
    · simp [cellsRead]
    · rw [cellsRead_above (by omega) hl.2, hv]
    · simp [cellsRead]
    · rw [cellsRead, if_neg (by omega), cellsRead_write_self_above hl.2]

/-! ### The memory -/

/-- `MemWrite` keeps the canonical form. -/
theorem write_wf {m : Memory} (a v : Word) (h : m.wf = true) : (m.write a v).wf = true :=
  cellsWrite_canonical a.isLt h

theorem read_write_self {m : Memory} {a v : Word} (h : m.wf = true) : (m.write a v).read a = v :=
  cellsRead_write_self h

theorem read_write_ne (m : Memory) {a b : Word} (v : Word) (h : b ≠ a) : (m.write a v).read b = m.read b :=
  cellsRead_write_ne (fun e => h (BitVec.eq_of_toNat_eq e)) m.cells

/-- A cell that no one listed reads 0. -/
theorem read_empty (a : Word) : (Memory.mk []).read a = 0 := rfl

/-! ### A loaded image -/

/-- The image of a program below 2^32 lists its cells from `k` on, rising, none of them 0. -/
theorem imageFrom_above : ∀ (words : List Word) (k j : Nat), j < k → k + 4 * words.length ≤ 2 ^ 32 →
    cellsAbove j (imageFrom k words) = true
  | [], _, _, _, _ => rfl
  | w :: rest, k, j, hj, hk => by
    simp only [List.length_cons] at hk
    unfold imageFrom
    split
    · exact imageFrom_above rest (k + 4) j (by omega) (by omega)
    · simp only [cellsAbove, Bool.and_eq_true, decide_eq_true_eq]
      exact ⟨⟨⟨hj, by omega⟩, by assumption⟩, imageFrom_above rest (k + 4) k (by omega) (by omega)⟩

theorem imageFrom_canonical (words : List Word) (h : words.length ≤ 2 ^ 30) : cellsCanonical (imageFrom 0 words) = true := by
  cases words with
  | nil => rfl
  | cons w rest =>
    simp only [List.length_cons] at h
    unfold imageFrom
    split
    · exact cellsCanonical_of_above (imageFrom_above rest 4 0 (by omega) (by omega))
    · simp only [cellsCanonical, Bool.and_eq_true, decide_eq_true_eq]
      exact ⟨⟨by omega, by assumption⟩, imageFrom_above rest 4 0 (by omega) (by omega)⟩

/-- The loaded memory is in canonical form. -/
theorem bootWords_mem_wf (c : Config) (words : List Word) (h : words.length ≤ 2 ^ 30) :
    (State.bootWords c words).mem.wf = true :=
  imageFrom_canonical words h

end Sys2Proof.Machine
end

