-- ==== Sys2Proof/Laws/State.lean ====
section
/-! SUPPORT. One lemma per field of State and update, so that no later proof unfolds a record update. -/

namespace Sys2Proof.Machine

/-! ### setReg -/

@[simp] theorem setReg_pc (s : State) (r : Reg) (v : Word) : (s.setReg r v).pc = s.pc := rfl
@[simp] theorem setReg_mem (s : State) (r : Reg) (v : Word) : (s.setReg r v).mem = s.mem := rfl
@[simp] theorem setReg_rstack (s : State) (r : Reg) (v : Word) : (s.setReg r v).rstack = s.rstack := rfl
@[simp] theorem setReg_status (s : State) (r : Reg) (v : Word) : (s.setReg r v).status = s.status := rfl
@[simp] theorem setReg_diagPc (s : State) (r : Reg) (v : Word) : (s.setReg r v).diagPc = s.diagPc := rfl
@[simp] theorem setReg_diagWord (s : State) (r : Reg) (v : Word) : (s.setReg r v).diagWord = s.diagWord := rfl
@[simp] theorem setReg_endAddr (s : State) (r : Reg) (v : Word) : (s.setReg r v).endAddr = s.endAddr := rfl
@[simp] theorem setReg_cfg (s : State) (r : Reg) (v : Word) : (s.setReg r v).cfg = s.cfg := rfl

theorem setReg_regs (s : State) (r : Reg) (v : Word) : (s.setReg r v).regs = s.regs.set r.val v r.isLt := rfl

/-- What a register reads as after a write to a register. -/
theorem reg_setReg (s : State) (r q : Reg) (v : Word) : (s.setReg r v).reg q = if q = r then v else s.reg q := by
  have h : (s.setReg r v).reg q = if r.val = q.val then v else s.reg q :=
    Vector.getElem_set r.isLt q.isLt
  rw [h]
  exact if_congr ⟨fun e => (Fin.ext e).symm, fun e => congrArg Fin.val e.symm⟩ rfl rfl

/-- A register reads the same in two states with the same register file. -/
theorem reg_of_regs {s t : State} (h : t.regs = s.regs) (r : Reg) : t.reg r = s.reg r := by
  rw [State.reg, h, State.reg]

/-! ### store -/

@[simp] theorem store_regs (s : State) (a v : Word) : (s.store a v).regs = s.regs := rfl
@[simp] theorem store_pc (s : State) (a v : Word) : (s.store a v).pc = s.pc := rfl
@[simp] theorem store_mem (s : State) (a v : Word) : (s.store a v).mem = s.mem.write a v := rfl
@[simp] theorem store_rstack (s : State) (a v : Word) : (s.store a v).rstack = s.rstack := rfl
@[simp] theorem store_status (s : State) (a v : Word) : (s.store a v).status = s.status := rfl
@[simp] theorem store_diagPc (s : State) (a v : Word) : (s.store a v).diagPc = s.diagPc := rfl
@[simp] theorem store_diagWord (s : State) (a v : Word) : (s.store a v).diagWord = s.diagWord := rfl
@[simp] theorem store_endAddr (s : State) (a v : Word) : (s.store a v).endAddr = s.endAddr := rfl
@[simp] theorem store_cfg (s : State) (a v : Word) : (s.store a v).cfg = s.cfg := rfl

/-! ### push -/

@[simp] theorem push_regs (s : State) (v : Word) : (s.push v).regs = s.regs := rfl
@[simp] theorem push_pc (s : State) (v : Word) : (s.push v).pc = s.pc := rfl
@[simp] theorem push_mem (s : State) (v : Word) : (s.push v).mem = s.mem := rfl
@[simp] theorem push_rstack (s : State) (v : Word) : (s.push v).rstack = v :: s.rstack := rfl
@[simp] theorem push_status (s : State) (v : Word) : (s.push v).status = s.status := rfl
@[simp] theorem push_diagPc (s : State) (v : Word) : (s.push v).diagPc = s.diagPc := rfl
@[simp] theorem push_diagWord (s : State) (v : Word) : (s.push v).diagWord = s.diagWord := rfl
@[simp] theorem push_endAddr (s : State) (v : Word) : (s.push v).endAddr = s.endAddr := rfl
@[simp] theorem push_cfg (s : State) (v : Word) : (s.push v).cfg = s.cfg := rfl

/-! ### halt -/

/-- Everything a halt does, as one record (60_exceptions.md R176). -/
theorem halt_eq (s : State) (c : HaltCause) :
    s.halt c = { s with
      status := .halted c
      diagPc := if c.isFailure then s.pc else s.diagPc
      diagWord := if c.isFailure then s.fetchWord else s.diagWord } := by
  unfold State.halt
  split <;> simp_all

@[simp] theorem halt_regs (s : State) (c : HaltCause) : (s.halt c).regs = s.regs := by rw [halt_eq]
@[simp] theorem halt_pc (s : State) (c : HaltCause) : (s.halt c).pc = s.pc := by rw [halt_eq]
@[simp] theorem halt_mem (s : State) (c : HaltCause) : (s.halt c).mem = s.mem := by rw [halt_eq]
@[simp] theorem halt_rstack (s : State) (c : HaltCause) : (s.halt c).rstack = s.rstack := by rw [halt_eq]
@[simp] theorem halt_status (s : State) (c : HaltCause) : (s.halt c).status = .halted c := by rw [halt_eq]
@[simp] theorem halt_endAddr (s : State) (c : HaltCause) : (s.halt c).endAddr = s.endAddr := by rw [halt_eq]
@[simp] theorem halt_cfg (s : State) (c : HaltCause) : (s.halt c).cfg = s.cfg := by rw [halt_eq]

theorem halt_diagPc (s : State) (c : HaltCause) :
    (s.halt c).diagPc = if c.isFailure then s.pc else s.diagPc := by rw [halt_eq]

theorem halt_diagWord (s : State) (c : HaltCause) :
    (s.halt c).diagWord = if c.isFailure then s.fetchWord else s.diagWord := by rw [halt_eq]

/-! ### placeWord -/

@[simp] theorem placeWord_regs (s : State) (w : Word) : (s.placeWord w).regs = s.regs := rfl
@[simp] theorem placeWord_pc (s : State) (w : Word) : (s.placeWord w).pc = s.pc := rfl
@[simp] theorem placeWord_mem (s : State) (w : Word) : (s.placeWord w).mem = s.mem.write s.pc w := rfl
@[simp] theorem placeWord_rstack (s : State) (w : Word) : (s.placeWord w).rstack = s.rstack := rfl
@[simp] theorem placeWord_status (s : State) (w : Word) : (s.placeWord w).status = .running := rfl
@[simp] theorem placeWord_cfg (s : State) (w : Word) : (s.placeWord w).cfg = s.cfg := rfl

end Sys2Proof.Machine
end

