-- ==== Sys2Proof/Laws/Word.lean ====
section
/-! SUPPORT. The arithmetic written as the spec writes it (exact integers, then wrap) is the arithmetic of 32-bit
patterns. -/

namespace Sys2Proof

theorem wrap_natCast (n : Nat) : wrap n = BitVec.ofNat 32 n := by
  simp [wrap]

theorem wrap_toNat (v : Word) : wrap v.toNat = v := by
  simp [wrap]

theorem wrap_toInt (v : Word) : wrap v.toInt = v := by
  simp [wrap]

theorem wrap_add (m n : Int) : wrap (m + n) = wrap m + wrap n := by
  simp [wrap, BitVec.ofInt_add]

theorem wrap_sub (m n : Int) : wrap (m - n) = wrap m - wrap n := by
  rw [Int.sub_eq_add_neg, wrap_add]
  simp [wrap, BitVec.ofInt_neg, BitVec.sub_eq_add_neg]

theorem wrap_mul (m n : Int) : wrap (m * n) = wrap m * wrap n := by
  simp [wrap, BitVec.ofInt_mul]

end Sys2Proof

namespace Sys2Proof.Machine

theorem nextPc_eq (s : State) : s.nextPc = s.pc + 4 := by
  rw [State.nextPc, wrap_add, wrap_toNat]
  rfl

theorem transferTarget_eq (s : State) (off : Word) : transferTarget s off = s.pc + off := by
  rw [transferTarget, wrap_add, wrap_toNat, wrap_toInt]

theorem aluAdd_eq (a b : Word) : aluAdd a b = a + b := by
  rw [aluAdd, wrap_add, wrap_toNat, wrap_toNat]

theorem aluSub_eq (a b : Word) : aluSub a b = a - b := by
  rw [aluSub, wrap_sub, wrap_toNat, wrap_toNat]

theorem aluMul_eq (a b : Word) : aluMul a b = a * b := by
  rw [aluMul, wrap_mul, wrap_toNat, wrap_toNat]

theorem toInt_eq_zero_iff (d : Word) : d.toInt = 0 ↔ d = 0 := by
  rw [← BitVec.toInt_inj]
  rfl

/-- The quotient, read as a signed integer, is the exact one reduced to 32 bits. -/
theorem aluQuotient_toInt (n d : Word) : (aluQuotient n d).toInt = ((n.toInt).tdiv d.toInt).bmod (2 ^ 32) := by
  simp [aluQuotient, wrap]

theorem shiftBy_left (v : Word) (e : Nat) : shiftBy .left v e = v <<< e := by
  apply BitVec.eq_of_toNat_eq
  rw [shiftBy, wrap_natCast, BitVec.toNat_ofNat, BitVec.toNat_shiftLeft, Nat.shiftLeft_eq]

theorem shiftBy_right (v : Word) (e : Nat) : shiftBy .right v e = v >>> e := by
  have h : v.toNat / 2 ^ e < 2 ^ 32 := lt_of_le_of_lt (Nat.div_le_self _ _) v.isLt
  apply BitVec.eq_of_toNat_eq
  rw [shiftBy, wrap_natCast, BitVec.toNat_ofNat, Nat.mod_eq_of_lt h, BitVec.toNat_ushiftRight, Nat.shiftRight_eq_div_pow]

end Sys2Proof.Machine
end

