-- ==== Sys2Proof/Laws/Ops.lean ====
section
/-! SUPPORT. One lemma per shared operation that says once everything it can do. -/

namespace Sys2Proof.Machine

/-! ### The pc update -/

@[simp] theorem retire_continue (s t : State) : retire s (.continue_ t) = .next { t with pc := s.pc + 4 } := by
  rw [retire, nextPc_eq]

@[simp] theorem retire_jumped (s t : State) (target : Word) :
    retire s (.jumped t target) = .next { t with pc := target } := rfl

@[simp] theorem retire_halted (s : State) (c : HaltCause) : retire s (.halted c) = .next (s.halt c) := rfl

theorem writeResult_eq (rd : Reg) (v : Word) (s : State) :
    writeResult rd v s = .next { s.setReg rd v with pc := s.pc + 4 } :=
  retire_continue s _

theorem writeCell_eq (a v : Word) (s : State) :
    writeCell a v s = .next { s with mem := s.mem.write a v, pc := s.pc + 4 } :=
  retire_continue s _

/-! ### Transfers -/

theorem misaligned_iff (t : Word) : misaligned t = true ↔ ¬ t.toNat % 4 = 0 := by
  simp [misaligned]

theorem conditionHolds_iff (v : Word) : conditionHolds v = true ↔ v ≠ 0 := by
  simp [conditionHolds]

theorem stackFull_iff (s : State) : s.stackFull = true ↔ ∃ d, s.cfg.rsDepth = some d ∧ d ≤ s.rstack.length := by
  unfold State.stackFull
  cases s.cfg.rsDepth <;> simp

theorem takeJump_eq (s : State) (off : Word) :
    takeJump s off =
      if (s.pc + off).toNat % 4 = 0 then .jumped s (s.pc + off) else .halted .misalignedTarget := by
  simp only [takeJump, transferTarget_eq, misaligned_iff, ite_not]

theorem takeBranch_eq (s : State) (off : Word) :
    takeBranch s off =
      if (s.pc + off).toNat % 4 = 0 then
        if s.stackFull then .halted .returnStackOverflow else .jumped (s.push (s.pc + 4)) (s.pc + off)
      else .halted .misalignedTarget := by
  simp only [takeBranch, transferTarget_eq, misaligned_iff, nextPc_eq, ite_not]

theorem gated_eq (s : State) (rcond : Reg) (taken : StepResult) :
    gated s rcond taken = if s.reg rcond = 0 then .continue_ s else taken := by
  simp only [gated, conditionHolds_iff, ne_eq, ite_not]

/-! ### Division -/

theorem aluDiv_of_ne_zero (p : Div0Policy) (n : Word) {d : Word} (h : d ≠ 0) : aluDiv p n d = some (aluQuotient n d) :=
  if_neg (mt (toInt_eq_zero_iff d).mp h)

theorem aluDiv_zero (p : Div0Policy) (n : Word) :
    aluDiv p n 0 = match p with | .fatal => none | .value q => some q := by
  cases p <;> simp [aluDiv]

theorem aluDiv_eq_none_iff (p : Div0Policy) (n d : Word) : aluDiv p n d = none ↔ d = 0 ∧ p = .fatal := by
  by_cases h : d = 0
  · subst h
    rw [aluDiv_zero]
    cases p <;> simp
  · rw [aluDiv_of_ne_zero p n h]
    exact ⟨fun e => absurd e (by simp), fun e => absurd e.1 h⟩

/-! ### The front of a step -/

/-- What the front of a step can come to, with a program running (40_step_cycle.md R81, R82). -/
theorem frontOfStep_running {s : State} {e : Word} (hr : s.status = .running) (he : s.endAddr = some e) :
    frontOfStep s = if s.pc = e then .stop (.next (s.halt .pcExhausted)) else fetchDecode s := by
  simp only [frontOfStep, hr, he]

theorem step_running {s : State} {e : Word} (hr : s.status = .running) (he : s.endAddr = some e) :
    step s =
      if s.pc = e then .next (s.halt .pcExhausted)
      else
        match decodeWith s.cfg.opmap s.fetchWord with
        | .instr i => exec i s
        | .invalidCategory => .next (s.halt .invalidCategory)
        | .invalidOpcode => .next (s.halt .invalidOpcode) := by
  rw [step, frontOfStep_running hr he]
  split
  · rename_i h
    split at h
    · cases h
    · unfold fetchDecode at h
      split at h <;> first | (cases h; simp_all) | cases h
  · rename_i h
    split at h
    · cases h
      simp_all
    · unfold fetchDecode at h
      split at h <;> first | (cases h; simp_all) | cases h

/-- Where a step answers a next state, the machine was running with a program, and the step is one of four. -/
theorem step_next_cases {s t : State} (h : step s = .next t) :
    s.status = .running ∧ ∃ e, s.endAddr = some e ∧
      ((s.pc = e ∧ t = s.halt .pcExhausted) ∨
        s.pc ≠ e ∧
          ((∃ i, decodeWith s.cfg.opmap s.fetchWord = .instr i ∧ exec i s = .next t) ∨
            (decodeWith s.cfg.opmap s.fetchWord = .invalidCategory ∧ t = s.halt .invalidCategory) ∨
            (decodeWith s.cfg.opmap s.fetchWord = .invalidOpcode ∧ t = s.halt .invalidOpcode))) := by
  cases hr : s.status with
  | halted c => simp [step, frontOfStep, hr] at h
  | running =>
    cases he : s.endAddr with
    | none => simp [step, frontOfStep, hr, he] at h
    | some e =>
      refine ⟨rfl, e, rfl, ?_⟩
      rw [step_running hr he] at h
      split at h
      · exact .inl ⟨by assumption, by cases h; rfl⟩
      · refine .inr ⟨by assumption, ?_⟩
        split at h
        · exact .inl ⟨_, by assumption, h⟩
        · exact .inr (.inl ⟨by assumption, by cases h; rfl⟩)
        · exact .inr (.inr ⟨by assumption, by cases h; rfl⟩)

end Sys2Proof.Machine
end

