-- ==== Sys2Proof/Laws/Exec.lean ====
section
/-! SUPPORT. What executing one instruction can do, said once. -/

namespace Sys2Proof.Machine

/-- The offset of the transfer an instruction makes in a state, where it makes one (43_control.md R122 to R131). -/
def transferOffset (s : State) : Instr → Option Word
  | .jump off => some off
  | .jumpd rs => some (s.reg rs)
  | .jumpif rcond off => if s.reg rcond = 0 then none else some off
  | .jumpifd rcond rs => if s.reg rcond = 0 then none else some (s.reg rs)
  | .branch off => some off
  | .branchif rcond off => if s.reg rcond = 0 then none else some off
  | .branchifd rcond rs => if s.reg rcond = 0 then none else some (s.reg rs)
  | _ => none

/-- The instruction is a branch, which pushes when it is taken. -/
def isBranch : Instr → Bool
  | .branch _ => true
  | .branchif _ _ => true
  | .branchifd _ _ => true
  | _ => false

/-- The eight things executing an instruction can come to. -/
inductive Executes (i : Instr) (s t : State) : Prop where
  /-- It writes its destination and the pc advances. -/
  | writes (rd : Reg) (v : Word) (hd : destination i = some rd) (ht : t = { s.setReg rd v with pc := s.pc + 4 })
  /-- It stores through a register. -/
  | storesIndirect (raddr rs : Reg) (hi : i = .storeind raddr rs)
      (ht : t = { s with mem := s.mem.write (addrIndirect s raddr) (s.reg rs), pc := s.pc + 4 })
  /-- It stores to an address of its own. -/
  | storesDirect (addr : Word) (rs : Reg) (hi : i = .storedir addr rs)
      (ht : t = { s with mem := s.mem.write (addrDirect addr) (s.reg rs), pc := s.pc + 4 })
  /-- A control instruction that does not transfer: the pc advances. -/
  | fallsThrough (hc : isControl i = true) (ht : t = { s with pc := s.pc + 4 })
  /-- A taken jump. -/
  | jumps (off : Word) (hc : isControl i = true) (ho : transferOffset s i = some off) (ha : Aligned (s.pc + off))
      (ht : t = { s with pc := s.pc + off })
  /-- A taken branch. -/
  | calls (off : Word) (hb : isBranch i = true) (ho : transferOffset s i = some off) (ha : Aligned (s.pc + off))
      (hf : s.stackFull = false) (ht : t = { s with pc := s.pc + off, rstack := (s.pc + 4) :: s.rstack })
  /-- A return to a popped address. -/
  | returns (top : Word) (rest : List Word) (hi : i = .ret) (hs : s.rstack = top :: rest)
      (ht : t = { s with pc := top, rstack := rest })
  /-- A halt with one of the causes of execute. -/
  | halts (c : HaltCause) (ht : t = s.halt c)
      (hc : (i = .end_ ∧ c = .ended) ∨
        ((∃ rd rs1 rs2, i = .div rd rs1 rs2 ∧ s.reg rs2 = 0) ∧ s.cfg.div0 = .fatal ∧ c = .divisionByZero) ∨
        (∃ off, transferOffset s i = some off ∧ ¬Aligned (s.pc + off) ∧ c = .misalignedTarget) ∨
        (∃ off, isBranch i = true ∧ transferOffset s i = some off ∧ Aligned (s.pc + off) ∧ s.stackFull = true ∧
          c = .returnStackOverflow))

theorem executes_writeResult {i : Instr} {s t : State} {rd : Reg} {v : Word} (hd : destination i = some rd)
    (h : writeResult rd v s = .next t) : Executes i s t := by
  rw [writeResult_eq] at h
  cases h
  exact .writes rd v hd rfl

theorem executes_takeJump {i : Instr} {s t : State} {off : Word} (hc : isControl i = true)
    (ho : transferOffset s i = some off) (h : retire s (takeJump s off) = .next t) : Executes i s t := by
  rw [takeJump_eq] at h
  split at h
  · cases h
    exact .jumps off hc ho (by assumption) rfl
  · cases h
    exact .halts _ rfl (.inr (.inr (.inl ⟨off, ho, by assumption, rfl⟩)))

theorem executes_takeBranch {i : Instr} {s t : State} {off : Word} (hb : isBranch i = true)
    (ho : transferOffset s i = some off) (h : retire s (takeBranch s off) = .next t) : Executes i s t := by
  rw [takeBranch_eq] at h
  split at h
  · split at h
    · cases h
      exact .halts _ rfl (.inr (.inr (.inr ⟨off, hb, ho, by assumption, by assumption, rfl⟩)))
    · cases h
      exact .calls off hb ho (by assumption) (by simp_all) rfl
  · cases h
    exact .halts _ rfl (.inr (.inr (.inl ⟨off, ho, by assumption, rfl⟩)))

/-- A gated transfer either falls through or executes as the taken one does. -/
theorem executes_gated {i : Instr} {s t : State} {rcond : Reg} {r : StepResult} (hc : isControl i = true)
    (hr : s.reg rcond ≠ 0 → retire s r = .next t → Executes i s t)
    (h : retire s (gated s rcond r) = .next t) : Executes i s t := by
  rw [gated_eq] at h
  split at h
  · rw [retire_continue] at h
    cases h
    exact .fallsThrough hc rfl
  · exact hr (by assumption) h

/-- What executing one instruction can do. -/
theorem exec_executes {i : Instr} {s t : State} (h : exec i s = .next t) : Executes i s t := by
  cases i with
  | loadimm rd imm => exact executes_writeResult rfl h
  | loadind rd raddr => exact executes_writeResult rfl h
  | storeind raddr rs =>
    rw [exec, execStoreind, writeCell_eq] at h
    cases h
    exact .storesIndirect raddr rs rfl rfl
  | storedir addr rs =>
    rw [exec, execStoredir, writeCell_eq] at h
    cases h
    exact .storesDirect addr rs rfl rfl
  | loaddir rd addr => exact executes_writeResult rfl h
  | add rd rs1 rs2 => exact executes_writeResult rfl h
  | sub rd rs1 rs2 => exact executes_writeResult rfl h
  | mul rd rs1 rs2 => exact executes_writeResult rfl h
  | div rd rs1 rs2 =>
    rw [exec, execDiv] at h
    split at h
    · exact executes_writeResult rfl h
    · rename_i hq
      cases h
      obtain ⟨hz, hp⟩ := (aluDiv_eq_none_iff _ _ _).mp hq
      exact .halts _ rfl (.inr (.inl ⟨⟨rd, rs1, rs2, rfl, hz⟩, hp, rfl⟩))
  | jump off => exact executes_takeJump rfl rfl h
  | jumpd rs => exact executes_takeJump rfl rfl h
  | jumpif rcond off =>
    exact executes_gated rfl (fun hn ht => executes_takeJump rfl (by rw [transferOffset, if_neg hn]) ht) h
  | jumpifd rcond rs =>
    exact executes_gated rfl (fun hn ht => executes_takeJump rfl (by rw [transferOffset, if_neg hn]) ht) h
  | ret =>
    rw [exec, execRet] at h
    split at h
    · rw [retire_continue] at h
      cases h
      exact .fallsThrough rfl rfl
    · rename_i top rest hs
      cases h
      exact .returns top rest rfl hs rfl
  | end_ =>
    cases h
    exact .halts _ rfl (.inl ⟨rfl, rfl⟩)
  | branch off => exact executes_takeBranch rfl rfl h
  | branchif rcond off =>
    exact executes_gated rfl (fun hn ht => executes_takeBranch rfl (by rw [transferOffset, if_neg hn]) ht) h
  | branchifd rcond rs =>
    exact executes_gated rfl (fun hn ht => executes_takeBranch rfl (by rw [transferOffset, if_neg hn]) ht) h
  | and rd rs1 rs2 => exact executes_writeResult rfl h
  | or rd rs1 rs2 => exact executes_writeResult rfl h
  | nand rd rs1 rs2 => exact executes_writeResult rfl h
  | nor rd rs1 rs2 => exact executes_writeResult rfl h
  | xor rd rs1 rs2 => exact executes_writeResult rfl h
  | lsl rd rs1 rs2 => exact executes_writeResult rfl h
  | lsr rd rs1 rs2 => exact executes_writeResult rfl h
  | lt rd rs1 rs2 => exact executes_writeResult rfl h
  | lte rd rs1 rs2 => exact executes_writeResult rfl h
  | gt rd rs1 rs2 => exact executes_writeResult rfl h
  | gte rd rs1 rs2 => exact executes_writeResult rfl h
  | eq rd rs1 rs2 => exact executes_writeResult rfl h

end Sys2Proof.Machine
end

