-- ==== Sys2Proof/Laws/PerInstr.lean ====
section
/-! SUPPORT. Statements made per instruction (LAWS.json). Family HeaderSelects: the default OPMAP gives every instruction a
word, and that word's category and opcode select the instruction again (spec/30_encoding.md R51, R60). -/

namespace Sys2Proof

/-- A word the default map's code heads is selected by that code. -/
theorem header_selects {i : Instr} {cat op : BitVec 4} (hc : OpMap.default.codeOf i.mnemonic = some (cat, op))
    (hl : OpMap.default.lookup cat op = some i.mnemonic) :
    ∃ w, encode i = some w ∧ OpMap.default.lookup (fieldCat w) (fieldOp w) = some i.mnemonic := by
  refine ⟨cat ++ op ++ operandBits i, by simp only [encode, encodeWith, hc], ?_⟩
  rw [(header_fields _ _ _).1, (header_fields _ _ _).2, hl]

end Sys2Proof

namespace Sys2Proof.Laws.HeaderSelects

/-- The family's statement of one instruction. -/
def Statement (i : Instr) : Prop :=
  ∃ w, encode i = some w ∧ OpMap.default.lookup (fieldCat w) (fieldOp w) = some i.mnemonic

theorem loadimm (rd : Reg) (imm : Word) : Statement (.loadimm rd imm) := header_selects rfl rfl
theorem loadind (rd : Reg) (raddr : Reg) : Statement (.loadind rd raddr) := header_selects rfl rfl
theorem storeind (raddr : Reg) (rs : Reg) : Statement (.storeind raddr rs) := header_selects rfl rfl
theorem storedir (addr : Word) (rs : Reg) : Statement (.storedir addr rs) := header_selects rfl rfl
theorem loaddir (rd : Reg) (addr : Word) : Statement (.loaddir rd addr) := header_selects rfl rfl
theorem add (rd : Reg) (rs1 : Reg) (rs2 : Reg) : Statement (.add rd rs1 rs2) := header_selects rfl rfl
theorem sub (rd : Reg) (rs1 : Reg) (rs2 : Reg) : Statement (.sub rd rs1 rs2) := header_selects rfl rfl
theorem mul (rd : Reg) (rs1 : Reg) (rs2 : Reg) : Statement (.mul rd rs1 rs2) := header_selects rfl rfl
theorem div (rd : Reg) (rs1 : Reg) (rs2 : Reg) : Statement (.div rd rs1 rs2) := header_selects rfl rfl
theorem jump (off : Word) : Statement (.jump off) := header_selects rfl rfl
theorem jumpd (rs : Reg) : Statement (.jumpd rs) := header_selects rfl rfl
theorem jumpif (rcond : Reg) (off : Word) : Statement (.jumpif rcond off) := header_selects rfl rfl
theorem jumpifd (rcond : Reg) (rs : Reg) : Statement (.jumpifd rcond rs) := header_selects rfl rfl
theorem ret : Statement (.ret) := header_selects rfl rfl
theorem end_ : Statement (.end_) := header_selects rfl rfl
theorem branch (off : Word) : Statement (.branch off) := header_selects rfl rfl
theorem branchif (rcond : Reg) (off : Word) : Statement (.branchif rcond off) := header_selects rfl rfl
theorem branchifd (rcond : Reg) (rs : Reg) : Statement (.branchifd rcond rs) := header_selects rfl rfl
theorem and (rd : Reg) (rs1 : Reg) (rs2 : Reg) : Statement (.and rd rs1 rs2) := header_selects rfl rfl
theorem or (rd : Reg) (rs1 : Reg) (rs2 : Reg) : Statement (.or rd rs1 rs2) := header_selects rfl rfl
theorem nand (rd : Reg) (rs1 : Reg) (rs2 : Reg) : Statement (.nand rd rs1 rs2) := header_selects rfl rfl
theorem nor (rd : Reg) (rs1 : Reg) (rs2 : Reg) : Statement (.nor rd rs1 rs2) := header_selects rfl rfl
theorem xor (rd : Reg) (rs1 : Reg) (rs2 : Reg) : Statement (.xor rd rs1 rs2) := header_selects rfl rfl
theorem lsl (rd : Reg) (rs1 : Reg) (rs2 : Reg) : Statement (.lsl rd rs1 rs2) := header_selects rfl rfl
theorem lsr (rd : Reg) (rs1 : Reg) (rs2 : Reg) : Statement (.lsr rd rs1 rs2) := header_selects rfl rfl
theorem lt (rd : Reg) (rs1 : Reg) (rs2 : Reg) : Statement (.lt rd rs1 rs2) := header_selects rfl rfl
theorem lte (rd : Reg) (rs1 : Reg) (rs2 : Reg) : Statement (.lte rd rs1 rs2) := header_selects rfl rfl
theorem gt (rd : Reg) (rs1 : Reg) (rs2 : Reg) : Statement (.gt rd rs1 rs2) := header_selects rfl rfl
theorem gte (rd : Reg) (rs1 : Reg) (rs2 : Reg) : Statement (.gte rd rs1 rs2) := header_selects rfl rfl
theorem eq (rd : Reg) (rs1 : Reg) (rs2 : Reg) : Statement (.eq rd rs1 rs2) := header_selects rfl rfl

end Sys2Proof.Laws.HeaderSelects
end

