-- ==== Sys2Proof/Tests/Slice0.lean ====
section
/-! SUPPORT. The model's own tests. Expected words and results are those of spec/95_test_vectors.md (the section is named at
each group), or hand calculation from the rule named. After them, for every obligation with hypotheses, a state and
operands that meet them. -/

namespace Sys2Proof.Tests

open Sys2Proof Sys2Proof.Machine

/-! ### Helpers -/

/-- A small running state: END_ADDR 0x1000, the listed registers, return stack and cells, and the word `w` at the pc. -/
def at_ (pc w : Word) (regs : List (Reg × Word)) (cells : List (Word × Word)) (stack : List Word) : State :=
  let s : State := { State.reset with pc := pc, endAddr := some 0x00001000, rstack := stack }
  let s := regs.foldl (fun s p => s.setReg p.1 p.2) s
  (cells.foldl (fun s p => s.store p.1 p.2) s).store pc w

/-- The state after a step, or the state before it where there is none. -/
def after (s : State) : State :=
  match step s with
  | .next t => t
  | .fault _ => s
  | .refused _ => s

/-- The step answers a next state. -/
def steps (s : State) : Bool :=
  match step s with
  | .next _ => true
  | .fault _ => false
  | .refused _ => false

theorem step_after {s : State} (h : steps s = true) : step s = .next (after s) := by
  unfold steps at h
  unfold after
  cases hs : step s with
  | next t => rfl
  | fault f => rw [hs] at h; cases h
  | refused r => rw [hs] at h; cases h

/-- One register and the pc after a step that goes on. -/
def regPc (r : Reg) (s : State) : Option (Word × Word) :=
  if steps s && decide ((after s).status = .running) then some ((after s).reg r, (after s).pc) else none

/-- One cell and the pc after a step that goes on. -/
def cellPc (a : Word) (s : State) : Option (Word × Word) :=
  if steps s && decide ((after s).status = .running) then some ((after s).mem.read a, (after s).pc) else none

/-- The return stack and the pc after a step that goes on. -/
def stackPc (s : State) : Option (List Word × Word) :=
  if steps s && decide ((after s).status = .running) then some ((after s).rstack, (after s).pc) else none

/-- Status, diagnostics, pc and return stack after a step. -/
def haltOf (s : State) : Status × Word × Word × Word × List Word :=
  ((after s).status, (after s).diagPc, (after s).diagWord, (after s).pc, (after s).rstack)

/-! ### WellFormed: an ill-formed term for each check -/

theorem test_imm16_of_loadimm_refused : Instr.wellFormed (.loadimm 1 0x00008000) = false := by decide
theorem test_imm16_of_loadimm_accepted : Instr.wellFormed (.loadimm 1 0xFFFF8000) = true := by decide
theorem test_addr16_of_storedir_refused : Instr.wellFormed (.storedir 0x00010000 1) = false := by decide
theorem test_addr16_of_loaddir_refused : Instr.wellFormed (.loaddir 1 0xFFFFFFFF) = false := by decide
theorem test_offset24_of_jump_refused : Instr.wellFormed (.jump 0x00800000) = false := by decide
theorem test_offset24_of_branch_refused : Instr.wellFormed (.branch 0xFF7FFFFF) = false := by decide
theorem test_imm16_of_jumpif_refused : Instr.wellFormed (.jumpif 1 0x00008000) = false := by decide
theorem test_imm16_of_branchif_refused : Instr.wellFormed (.branchif 1 0xFFFF7FFF) = false := by decide
theorem test_two_entries_for_one_code_refused :
    OpMap.wellFormed [⟨1, 0, .add⟩, ⟨1, 1, .sub⟩, ⟨1, 0, .mul⟩] = false := by decide
theorem test_default_map_accepted : OpMap.wellFormed OpMap.default = true := by decide

/-! ### Decode (95_test_vectors.md parts 1 and 2) -/

theorem test_decode_memory :
    decode 0x00000000 = .instr (.loadimm 0 0) ∧ decode 0x0003FFFF = .instr (.loadimm 3 0xFFFFFFFF) ∧
    decode 0x01030700 = .instr (.loadind 7 3) ∧ decode 0x010307AB = .instr (.loadind 7 3) ∧
    decode 0x02050200 = .instr (.storeind 5 2) ∧ decode 0x0302FFFF = .instr (.storedir 0x0000FFFF 2) ∧
    decode 0x04040100 = .instr (.loaddir 4 0x00000100) := by decide

theorem test_decode_arithmetic :
    decode 0x10020001 = .instr (.add 2 0 1) ∧ decode 0x11030102 = .instr (.sub 3 1 2) ∧
    decode 0x12030102 = .instr (.mul 3 1 2) ∧ decode 0x13030102 = .instr (.div 3 1 2) := by decide

theorem test_decode_jumps :
    decode 0x20FFFFFC = .instr (.jump 0xFFFFFFFC) ∧ decode 0x20800000 = .instr (.jump 0xFF800000) ∧
    decode 0x21090000 = .instr (.jumpd 9) ∧ decode 0x2109FFFF = .instr (.jumpd 9) ∧
    decode 0x22FFF801 = .instr (.jumpif 1 0xFFFFFFF8) ∧ decode 0x23090001 = .instr (.jumpifd 1 9) ∧
    decode 0x2309EE01 = .instr (.jumpifd 1 9) := by decide

theorem test_decode_ret_end_and_branches :
    decode 0x24000000 = .instr .ret ∧ decode 0x24ABCDEF = .instr .ret ∧ decode 0x25000000 = .instr .end_ ∧
    decode 0x25FFFFFF = .instr .end_ ∧ decode 0x26000010 = .instr (.branch 16) ∧
    decode 0x27000C04 = .instr (.branchif 4 12) ∧ decode 0x28090004 = .instr (.branchifd 4 9) := by decide

theorem test_decode_logical :
    decode 0x30030102 = .instr (.and 3 1 2) ∧ decode 0x31030102 = .instr (.or 3 1 2) ∧
    decode 0x32030102 = .instr (.nand 3 1 2) ∧ decode 0x33030102 = .instr (.nor 3 1 2) ∧
    decode 0x34030102 = .instr (.xor 3 1 2) := by decide

theorem test_decode_shift :
    decode 0x40020103 = .instr (.lsl 2 1 3) ∧ decode 0x41020103 = .instr (.lsr 2 1 3) := by decide

theorem test_decode_comparison :
    decode 0x50030102 = .instr (.lt 3 1 2) ∧ decode 0x51030102 = .instr (.lte 3 1 2) ∧
    decode 0x52030102 = .instr (.gt 3 1 2) ∧ decode 0x53030102 = .instr (.gte 3 1 2) ∧
    decode 0x54030102 = .instr (.eq 3 1 2) := by decide

theorem test_decode_invalid_opcode :
    decode 0x05000000 = .invalidOpcode ∧ decode 0x14000000 = .invalidOpcode ∧ decode 0x1F000000 = .invalidOpcode ∧
    decode 0x29000000 = .invalidOpcode ∧ decode 0x35000000 = .invalidOpcode ∧ decode 0x42000000 = .invalidOpcode ∧
    decode 0x55000000 = .invalidOpcode := by decide

theorem test_decode_invalid_category :
    decode 0x60000000 = .invalidCategory ∧ decode 0xF0000000 = .invalidCategory ∧
    decode 0xFFFFFFFF = .invalidCategory := by decide

/-- The words of the listings of part 3, encoded. -/
theorem test_encode :
    encode (.loadimm 1 0xFFFFFFF7) = some 0x0001FFF7 ∧ encode (.storeind 5 2) = some 0x02050200 ∧
    encode (.jumpif 2 12) = some 0x22000C02 ∧ encode (.branchifd 4 9) = some 0x28090004 ∧
    encode (.sub 3 0 1) = some 0x11030001 ∧ encode .end_ = some 0x25000000 := by decide

/-- The two shift directions exchanged, a map of the model's own: OPMAP is a parameter (00_scope.md R8). -/
theorem test_decode_under_another_map :
    decodeWith [⟨7, 3, .lsr⟩, ⟨7, 4, .lsl⟩] 0x74020103 = .instr (.lsl 2 1 3) ∧
    decodeWith [⟨7, 3, .lsr⟩, ⟨7, 4, .lsl⟩] 0x75020103 = .invalidOpcode ∧
    decodeWith [⟨7, 3, .lsr⟩, ⟨7, 4, .lsl⟩] 0x40020103 = .invalidCategory := by decide

/-! ### Memory category (95_test_vectors.md part 2) -/

theorem test_loadimm_sign_extends : regPc 3 (at_ 0x10 0x00038000 [] [] []) = some (0xFFFF8000, 0x14) := by decide
theorem test_loadimm_largest : regPc 3 (at_ 0x10 0x00037FFF [] [] []) = some (0x00007FFF, 0x14) := by decide
theorem test_loadind_own_address :
    regPc 1 (at_ 0x10 0x01010100 [(1, 0x100)] [(0x100, 0xDEADBEEF)] []) = some (0xDEADBEEF, 0x14) := by decide
theorem test_loadind_odd_address :
    regPc 7 (at_ 0x10 0x01030700 [(3, 5)] [(4, 0x11111111), (5, 0x22222222)] []) = some (0x22222222, 0x14) := by decide
theorem test_storeind_odd_address :
    cellPc 6 (at_ 0x10 0x02050200 [(5, 6), (2, 0x99)] [] []) = some (0x99, 0x14) ∧
    cellPc 4 (at_ 0x10 0x02050200 [(5, 6), (2, 0x99)] [] []) = some (0, 0x14) ∧
    cellPc 8 (at_ 0x10 0x02050200 [(5, 6), (2, 0x99)] [] []) = some (0, 0x14) := by decide
theorem test_storeind_same_register :
    cellPc 0x300 (at_ 0x10 0x02050500 [(5, 0x300)] [] []) = some (0x300, 0x14) := by decide
theorem test_storedir_zero_extends :
    cellPc 0x0000FFFF (at_ 0x10 0x0302FFFF [(2, 0x77)] [] []) = some (0x77, 0x14) ∧
    cellPc 0xFFFFFFFF (at_ 0x10 0x0302FFFF [(2, 0x77)] [] []) = some (0, 0x14) := by decide
theorem test_loaddir_zero_extends :
    regPc 4 (at_ 0x10 0x04048000 [(4, 1)] [(0x8000, 15), (0xFFFF8000, 16)] []) = some (15, 0x14) := by decide
theorem test_loaddir_program_word :
    regPc 9 (at_ 0x10 0x04090000 [] [(0, 0x00010005)] []) = some (0x00010005, 0x14) := by decide

/-! ### Arithmetic category -/

theorem test_add_wraps : regPc 3 (at_ 0x10 0x10030102 [(1, 0x7FFFFFFF), (2, 1)] [] []) = some (0x80000000, 0x14) := by
  decide
theorem test_add_same_register : regPc 1 (at_ 0x10 0x10010101 [(1, 3)] [] []) = some (6, 0x14) := by decide
theorem test_sub_operand_order : regPc 3 (at_ 0x10 0x11030102 [(1, 3), (2, 5)] [] []) = some (0xFFFFFFFE, 0x14) := by
  decide
theorem test_mul_wraps :
    regPc 3 (at_ 0x10 0x12030102 [(1, 0x80000000), (2, 0xFFFFFFFF)] [] []) = some (0x80000000, 0x14) := by decide
theorem test_div_truncates :
    regPc 3 (at_ 0x10 0x13030102 [(1, 0xFFFFFF9C), (2, 7)] [] []) = some (0xFFFFFFF2, 0x14) ∧
    regPc 3 (at_ 0x10 0x13030102 [(1, 7), (2, 0xFFFFFFFE)] [] []) = some (0xFFFFFFFD, 0x14) ∧
    regPc 3 (at_ 0x10 0x13030102 [(1, 0x80000000), (2, 0xFFFFFFFF)] [] []) = some (0x80000000, 0x14) := by decide
theorem test_div_by_zero :
    haltOf (at_ 0x10 0x13030102 [(1, 9), (3, 8)] [] []) =
      (.halted .divisionByZero, 0x10, 0x13030102, 0x10, []) ∧
    (after (at_ 0x10 0x13030102 [(1, 9), (3, 8)] [] [])).reg 3 = 8 := by decide

/-! ### Control category -/

theorem test_jump_backward : stackPc (at_ 0x00 0x20800000 [] [] [8]) = some ([8], 0xFF800000) := by decide
theorem test_jump_misaligned :
    haltOf (at_ 0x10 0x20000002 [] [] []) = (.halted .misalignedTarget, 0x10, 0x20000002, 0x10, []) := by decide
theorem test_jumpd_is_relative : stackPc (at_ 0x20 0x21090000 [(9, 0xFFFFFFF8)] [] []) = some ([], 0x18) := by decide
theorem test_jumpif_any_nonzero :
    stackPc (at_ 0x14 0x22FFF801 [(1, 0x80000000)] [] []) = some ([], 0x0C) := by decide
theorem test_jumpif_not_taken_untested : stackPc (at_ 0x14 0x22000201 [] [] []) = some ([], 0x18) := by decide
theorem test_jumpifd_taken : stackPc (at_ 0x40 0x23090001 [(1, 1), (9, 0x10)] [] []) = some ([], 0x50) := by decide
theorem test_jumpifd_not_taken : stackPc (at_ 0x40 0x23090001 [(9, 0x10)] [] []) = some ([], 0x44) := by decide
theorem test_ret_pops : stackPc (at_ 0x1C 0x24000000 [] [] [0x30, 0x08]) = some ([0x08], 0x30) := by decide
theorem test_ret_empty : stackPc (at_ 0x00 0x24000000 [] [] []) = some ([], 0x04) := by decide
theorem test_end : haltOf (at_ 0x20 0x25000000 [] [] [8]) = (.halted .ended, 0, 0, 0x20, [8]) := by decide
theorem test_branch_wraps : stackPc (at_ 0xFFFFFFFC 0x26000008 [] [] []) = some ([0], 0x04) := by decide
theorem test_branch_misaligned_pushes_nothing :
    haltOf (at_ 0x04 0x26000006 [] [] []) = (.halted .misalignedTarget, 0x04, 0x26000006, 0x04, []) := by decide
theorem test_branchif_taken : stackPc (at_ 0x30 0x27000C04 [(4, 1)] [] []) = some ([0x34], 0x3C) := by decide
theorem test_branchif_not_taken : stackPc (at_ 0x30 0x27000C04 [] [] []) = some ([], 0x34) := by decide
theorem test_branchifd_taken :
    stackPc (at_ 0x30 0x28090004 [(4, 7), (9, 0xFFFFFFF0)] [] []) = some ([0x34], 0x20) := by decide
theorem test_branchifd_not_taken : stackPc (at_ 0x30 0x28090004 [(9, 0xFFFFFFF0)] [] []) = some ([], 0x34) := by decide

/-- A push on a full stack of finite RS_DEPTH (60_exceptions.md R175), and a misaligned target before it (R180). -/
theorem test_return_stack_overflow :
    let s := at_ 0x04 0x26000010 [] [] [8]
    let m := at_ 0x04 0x26000006 [] [] [8]
    haltOf { s with cfg := { s.cfg with rsDepth := some 1 } } =
      (.halted .returnStackOverflow, 0x04, 0x26000010, 0x04, [8]) ∧
    haltOf { m with cfg := { m.cfg with rsDepth := some 1 } } =
      (.halted .misalignedTarget, 0x04, 0x26000006, 0x04, [8]) := by decide

/-! ### Logical category -/

theorem test_and : regPc 3 (at_ 0x10 0x30030102 [(1, 0xFF00FF00), (2, 0x0FF00FF0)] [] []) = some (0x0F000F00, 0x14) := by
  decide
theorem test_or : regPc 3 (at_ 0x10 0x31030102 [(1, 0xFF00FF00), (2, 0x0FF00FF0)] [] []) = some (0xFFF0FFF0, 0x14) := by
  decide
theorem test_nand :
    regPc 3 (at_ 0x10 0x32030102 [(1, 0xFF00FF00), (2, 0x0FF00FF0)] [] []) = some (0xF0FFF0FF, 0x14) := by decide
theorem test_nor : regPc 3 (at_ 0x10 0x33030102 [(1, 0xFF00FF00), (2, 0x0FF00FF0)] [] []) = some (0x000F000F, 0x14) := by
  decide
theorem test_xor : regPc 3 (at_ 0x10 0x34030102 [(1, 0xFF00FF00), (2, 0x0FF00FF0)] [] []) = some (0xF0F0F0F0, 0x14) := by
  decide

/-! ### Shift category -/

theorem test_lsl_in_range :
    regPc 2 (at_ 0x10 0x40020103 [(1, 0x12345678), (3, 16)] [] []) = some (0x56780000, 0x14) ∧
    regPc 2 (at_ 0x10 0x40020103 [(1, 0x80000001), (3, 1)] [] []) = some (0x00000002, 0x14) := by decide
theorem test_lsl_clamps :
    regPc 2 (at_ 0x10 0x40020103 [(1, 1), (3, 32)] [] []) = some (0x80000000, 0x14) ∧
    regPc 2 (at_ 0x10 0x40020103 [(1, 0x12345678), (3, 0xFFFFFFFF)] [] []) = some (0x12345678, 0x14) := by decide
theorem test_lsr_in_range :
    regPc 2 (at_ 0x10 0x41020103 [(1, 0xFFFFFFFF), (3, 4)] [] []) = some (0x0FFFFFFF, 0x14) ∧
    regPc 2 (at_ 0x10 0x41020103 [(1, 0x80000000), (3, 31)] [] []) = some (0x00000001, 0x14) := by decide
theorem test_lsr_clamps :
    regPc 2 (at_ 0x10 0x41020103 [(1, 0xFFFFFFFF), (3, 0x7FFFFFFF)] [] []) = some (0x00000001, 0x14) ∧
    regPc 2 (at_ 0x10 0x41020103 [(1, 0xFFFFFFFF), (3, 0x80000000)] [] []) = some (0xFFFFFFFF, 0x14) := by decide

/-! ### Comparison category -/

theorem test_lt_signed :
    regPc 3 (at_ 0x10 0x50030102 [(1, 0x80000000), (2, 0x7FFFFFFF)] [] []) = some (1, 0x14) ∧
    regPc 3 (at_ 0x10 0x50030102 [(1, 5), (2, 5)] [] []) = some (0, 0x14) := by decide
theorem test_lte_signed :
    regPc 3 (at_ 0x10 0x51030102 [(1, 0), (2, 0xFFFFFFFF)] [] []) = some (0, 0x14) ∧
    regPc 3 (at_ 0x10 0x51030102 [(1, 5), (2, 5)] [] []) = some (1, 0x14) := by decide
theorem test_gt_signed :
    regPc 3 (at_ 0x10 0x52030102 [(1, 0x7FFFFFFF), (2, 0x80000000)] [] []) = some (1, 0x14) ∧
    regPc 3 (at_ 0x10 0x52030102 [(1, 5), (2, 5)] [] []) = some (0, 0x14) := by decide
theorem test_gte_signed :
    regPc 3 (at_ 0x10 0x53030102 [(1, 0xFFFFFFFF), (2, 0)] [] []) = some (0, 0x14) ∧
    regPc 3 (at_ 0x10 0x53030102 [(1, 5), (2, 5)] [] []) = some (1, 0x14) := by decide
theorem test_eq :
    regPc 3 (at_ 0x10 0x54030102 [(1, 5), (2, 5)] [] []) = some (1, 0x14) ∧
    regPc 3 (at_ 0x10 0x54030102 [(1, 0), (2, 0x80000000)] [] []) = some (0, 0x14) := by decide

/-! ### Step cycle, halting, loading (95_test_vectors.md part 2 and programs P6, P7, P10) -/

theorem test_sentinel_before_fetch :
    haltOf (at_ 0x1000 0xF0000000 [] [] []) = (.halted .pcExhausted, 0, 0, 0x1000, []) := by decide
theorem test_unwritten_cell_past_the_end :
    regPc 0 { at_ 0x1004 0 [(0, 7)] [] [] with pc := 0x1004 } = some (0, 0x1008) := by decide
theorem test_invalid_category_halts :
    haltOf (at_ 4 0xF0000000 [] [] [8]) = (.halted .invalidCategory, 4, 0xF0000000, 4, [8]) := by decide
theorem test_invalid_opcode_halts :
    haltOf (at_ 4 0x1F000000 [] [] [8]) = (.halted .invalidOpcode, 4, 0x1F000000, 4, [8]) := by decide

/-- The loader's formulas (part 1): file bytes 25 00 00 00 are one word, and END_ADDR is 0. -/
theorem test_one_word_program :
    fileWords [0x25, 0x00, 0x00, 0x00] = some [0x25000000] ∧
    (State.bootWords Config.default [0x25000000]).endAddr = some 0 ∧
    (State.bootWords Config.default [0x25000000]).mem.read 0 = 0x25000000 ∧
    haltOf (State.bootWords Config.default [0x25000000]) = (.halted .pcExhausted, 0, 0, 0, []) := by decide

/-- A four-word program has END_ADDR 12 (part 1). -/
theorem test_four_word_program_sentinel :
    (State.bootWords Config.default [0x00000005, 0x00010007, 0x10020001, 0x25000000]).endAddr = some 12 := by decide

theorem test_partial_word_not_split : fileWords [0x25, 0x00, 0x00, 0x00, 0x01] = none := by decide

/-- The host's placing of a word from reset runs it. -/
theorem test_withFetchWord_runs :
    regPc 1 (State.reset.withFetchWord 32 0x0001FFFF) = some (0xFFFFFFFF, 4) ∧
    (State.reset.withFetchWord 32 0x0001FFFF).mem.wf = true := by decide

/-! ### Witnesses: for each obligation with hypotheses, a state and operands that meet them all -/

theorem witness_ThreeRegisterWordsDecode :
    OpMap.default.lookup 1 0 = some .add ∧ OpMap.default.lookup 1 1 = some .sub ∧ OpMap.default.lookup 1 2 = some .mul ∧
    OpMap.default.lookup 1 3 = some .div ∧ OpMap.default.lookup 3 0 = some .and ∧ OpMap.default.lookup 3 1 = some .or ∧
    OpMap.default.lookup 3 2 = some .nand ∧ OpMap.default.lookup 3 3 = some .nor ∧ OpMap.default.lookup 3 4 = some .xor ∧
    OpMap.default.lookup 4 0 = some .lsl ∧ OpMap.default.lookup 4 1 = some .lsr ∧ OpMap.default.lookup 5 0 = some .lt ∧
    OpMap.default.lookup 5 1 = some .lte ∧ OpMap.default.lookup 5 2 = some .gt ∧ OpMap.default.lookup 5 3 = some .gte ∧
    OpMap.default.lookup 5 4 = some .eq := by decide

theorem witness_ImmediateIndirectAndBranchWordsDecode :
    OpMap.default.lookup 0 0 = some .loadimm ∧ OpMap.default.lookup 0 1 = some .loadind ∧
    OpMap.default.lookup 0 2 = some .storeind ∧ OpMap.default.lookup 2 0 = some .jump ∧
    OpMap.default.lookup 2 6 = some .branch ∧ OpMap.default.lookup 2 2 = some .jumpif ∧
    OpMap.default.lookup 2 7 = some .branchif ∧ OpMap.default.lookup 2 3 = some .jumpifd ∧
    OpMap.default.lookup 2 8 = some .branchifd := by decide

theorem witness_DirectAndOperandlessWordsDecode :
    OpMap.default.lookup 0 3 = some .storedir ∧ OpMap.default.lookup 0 4 = some .loaddir ∧
    OpMap.default.lookup 2 1 = some .jumpd ∧ OpMap.default.lookup 2 4 = some .ret ∧
    OpMap.default.lookup 2 5 = some .end_ := by decide

theorem witness_DecodeFailsOnlyOutsideTheMap :
    OpMap.default.wellFormed = true ∧ (⟨5, 4, .eq⟩ : OpRow) ∈ OpMap.default ∧
    (0x54030102 : Word).extractLsb' 28 4 = 5 ∧ (0x54030102 : Word).extractLsb' 24 4 = 4 ∧
    (∀ r ∈ OpMap.default, r.cat ≠ (0x60000000 : Word).extractLsb' 28 4) ∧
    ((∃ r ∈ OpMap.default, r.cat = (0x55000000 : Word).extractLsb' 28 4) ∧
      ∀ r ∈ OpMap.default,
        ¬(r.cat = (0x55000000 : Word).extractLsb' 28 4 ∧ r.op = (0x55000000 : Word).extractLsb' 24 4)) := by decide

/-- The last instruction and the first reserved opcode of each category, and the first reserved category. -/
theorem witness_ReservedSpaceOfTheDefaultMap :
    decode 0x04000000 = .instr (.loaddir 0 0) ∧ decode 0x05000000 = .invalidOpcode ∧
    decode 0x13000000 = .instr (.div 0 0 0) ∧ decode 0x14000000 = .invalidOpcode ∧
    decode 0x28000000 = .instr (.branchifd 0 0) ∧ decode 0x29000000 = .invalidOpcode ∧
    decode 0x34000000 = .instr (.xor 0 0 0) ∧ decode 0x35000000 = .invalidOpcode ∧
    decode 0x41000000 = .instr (.lsr 0 0 0) ∧ decode 0x42000000 = .invalidOpcode ∧
    decode 0x54000000 = .instr (.eq 0 0 0) ∧ decode 0x55000000 = .invalidOpcode ∧
    decode 0x5FFFFFFF = .invalidOpcode ∧ decode 0x60000000 = .invalidCategory := by decide

theorem witness_UnusedBitsAreIgnored :
    decodeWith OpMap.default 0x2309EE01 = .instr (.jumpifd 1 9) ∧
    (0x2309EE01 ^^^ 0x23090001) &&& ~~~unusedBits (Instr.jumpifd 1 9).mnemonic = 0 := by decide

theorem witness_EncodeThenDecodeIsIdentity :
    (Instr.loadimm 255 0xFFFF8000).wellFormed = true ∧
    OpMap.default.lookup 0 0 = some (Instr.loadimm 255 0xFFFF8000).mnemonic ∧ OpMap.default.wellFormed = true ∧
    ∃ r ∈ OpMap.default, r.mnemonic = (Instr.loadimm 255 0xFFFF8000).mnemonic := by decide

theorem witness_DecodeThenEncodeGivesTheWordBack : decode 0x20800000 = .instr (.jump 0xFF800000) := by decide

theorem witness_StepExecutesTheDecodedInstruction :
    let s := at_ 0x10 0x10030102 [] [] []
    s.status = .running ∧ s.endAddr = some 0x1000 ∧ s.pc ≠ 0x1000 ∧
    decodeWith s.cfg.opmap (s.mem.read s.pc) = .instr (.add 3 1 2) := by decide

theorem witness_EndOfProgramTestComesFirst :
    let s := at_ 0x1000 0xF0000000 [] [] []
    s.status = .running ∧ s.endAddr = some s.pc := by decide

theorem witness_DecodeFailureChangesNothingElse :
    let s := at_ 4 0xF0000000 [] [] []
    let t := at_ 4 0x1F000000 [] [] []
    (s.status = .running ∧ s.endAddr = some 0x1000 ∧ s.pc ≠ 0x1000 ∧
      decodeWith s.cfg.opmap (s.mem.read s.pc) = .invalidCategory) ∧
    (t.status = .running ∧ t.endAddr = some 0x1000 ∧ t.pc ≠ 0x1000 ∧
      decodeWith t.cfg.opmap (t.mem.read t.pc) = .invalidOpcode) := by decide

/-- Each alternative of the two premises, at the first reserved category and the first reserved opcode of each category. -/
theorem witness_UnknownCategoryOrOpcodeIsFatal :
    let s := at_ 4 0x60000000 [] [] []
    let t := at_ 4 0x29000000 [] [] []
    (s.status = .running ∧ s.endAddr = some 0x1000 ∧ s.pc ≠ 0x1000 ∧ s.cfg.opmap = OpMap.default ∧
      (s.mem.read s.pc).extractLsb' 28 4 = 6 ∧ ∀ r ∈ s.cfg.opmap, r.cat ≠ 6) ∧
    (t.status = .running ∧ t.endAddr = some 0x1000 ∧ t.pc ≠ 0x1000 ∧ t.cfg.opmap = OpMap.default ∧
      (t.mem.read t.pc).extractLsb' 28 4 = 2 ∧ (t.mem.read t.pc).extractLsb' 24 4 = 9 ∧
      (∃ r ∈ t.cfg.opmap, r.cat = 2) ∧ ∀ r ∈ t.cfg.opmap, ¬(r.cat = 2 ∧ r.op = 9)) ∧
    ([(0, 5), (1, 4), (2, 9), (3, 5), (4, 2), (5, 5)] : List (BitVec 4 × BitVec 4)).all
      (fun p => OpMap.default.hasCategory p.1 && decide (OpMap.default.lookup p.1 p.2 = none)) = true :=
  ⟨⟨by decide, by decide, by decide, rfl, by decide, by decide⟩,
    ⟨by decide, by decide, by decide, rfl, by decide, by decide, by decide, by decide⟩, by decide⟩

theorem witness_NoStepWhenHaltedOrWithoutProgram :
    ({ State.reset with status := .halted .ended } : State).status = .halted .ended ∧
    State.reset.status = .running ∧ State.reset.endAddr = none := by decide

theorem witness_RunningMachineAlwaysSteps : (at_ 0x10 0xFFFFFFFF [] [] []).CanStep := ⟨by decide, by decide⟩

theorem witness_HaltsArePrecise :
    (∃ s t, step s = .next t ∧ t.status = .halted .divisionByZero) ∧
    ∃ s t, step s = .next t ∧ t.status = .halted .pcExhausted :=
  ⟨⟨at_ 4 0x13030102 [(1, 9)] [] [8], _, step_after (by decide), by decide⟩,
    ⟨at_ 0x1000 0x13030102 [] [] [8], _, step_after (by decide), by decide⟩⟩

theorem witness_EachHaltHasItsCause :
    (∃ s t, step s = .next t ∧ t.status = .halted .pcExhausted) ∧
    (∃ s t, step s = .next t ∧ t.status = .halted .invalidCategory) ∧
    (∃ s t, step s = .next t ∧ t.status = .halted .invalidOpcode) ∧
    (∃ s t, step s = .next t ∧ t.status = .halted .ended) ∧
    (∃ s t, step s = .next t ∧ t.status = .halted .divisionByZero) ∧
    (∃ s t, step s = .next t ∧ t.status = .halted .misalignedTarget) ∧
    ∃ s t, step s = .next t ∧ t.status = .halted .returnStackOverflow :=
  ⟨⟨at_ 0x1000 0 [] [] [], _, step_after (by decide), by decide⟩,
    ⟨at_ 4 0x60000000 [] [] [], _, step_after (by decide), by decide⟩,
    ⟨at_ 4 0x42000000 [] [] [], _, step_after (by decide), by decide⟩,
    ⟨at_ 4 0x25000000 [] [] [], _, step_after (by decide), by decide⟩,
    ⟨at_ 4 0x13030102 [] [] [], _, step_after (by decide), by decide⟩,
    ⟨at_ 4 0x28090004 [(4, 1), (9, 1)] [] [], _, step_after (by decide), by decide⟩,
    ⟨{ at_ 4 0x26000010 [] [] [] with cfg := { Config.default with rsDepth := some 0 } }, _, step_after (by decide),
      by decide⟩⟩

theorem witness_RunParametersNeverChange : ∃ s t, step s = .next t :=
  ⟨at_ 4 0x26000010 [] [] [], _, step_after (by decide)⟩

/-- Both inner premises: a step that halts with failure, and one that goes on. -/
theorem witness_DiagnosticsAreNeverRead :
    (∃ s t, step s = .next t ∧ t.status.isFailure = true) ∧ ∃ s t, step s = .next t ∧ t.status.isFailure = false :=
  ⟨⟨at_ 4 0x13030102 [] [] [], _, step_after (by decide), by decide⟩,
    ⟨at_ 4 0x10030102 [] [] [], _, step_after (by decide), by decide⟩⟩

/-- A state that meets the invariant with a finite RS_DEPTH one below full, entries on the stack and a listed cell, and a
step that pushes. -/
theorem witness_StepKeepsTheInvariant : ∃ s t, s.Inv ∧ step s = .next t ∧ t.rstack.length = 2 :=
  ⟨{ at_ 4 0x26000010 [] [(6, 1)] [8] with cfg := { Config.default with rsDepth := some 2 } }, _,
    { pcAligned := by decide
      stackAligned := by
        intro a h
        change a ∈ ([8] : List Word) at h
        rw [List.mem_singleton.mp h]
        decide
      memCanonical := by decide
      stackBounded := by intro d h; cases h; decide
      failureRecorded := by intro c h; cases h },
    step_after (by decide), by decide⟩

theorem witness_BootMeetsTheInvariant : ∃ s, State.boot Config.default [0x25, 0, 0, 0] = .next s := ⟨_, rfl⟩

theorem witness_ResetWithProgram : ([0x00010007, 0x25000000, 0] : List Word).length ≤ 2 ^ 30 := by decide

theorem witness_ProgramFileImage :
    let file : List Byte := [0x25, 0, 0, 0]
    file.length % 4 = 0 ∧ 0 < file.length ∧ file.length ≤ 2 ^ 32 ∧ 4 * 0 + 3 < file.length ∧
      file.length ≤ (4 : Word).toNat := by decide

/-- The four premises, the last by a file of one word more than fits. -/
theorem witness_SentinelAndRefusedFiles :
    (∃ f : List Byte, f.length % 4 = 0 ∧ 0 < f.length ∧ f.length ≤ 2 ^ 32) ∧ (∃ f : List Byte, f.length % 4 ≠ 0) ∧
    (∃ f : List Byte, f = []) ∧ ∃ f : List Byte, f.length % 4 = 0 ∧ 2 ^ 32 < f.length :=
  ⟨⟨[1, 2, 3, 4], by decide⟩, ⟨[1], by decide⟩, ⟨[], rfl⟩,
    ⟨List.replicate (2 ^ 32 + 4) 0, by rw [List.length_replicate]; norm_num⟩⟩

theorem witness_PlacedWordRunsNext :
    State.reset.mem.wf = true ∧ State.reset.cfg.opmap = OpMap.default ∧
    decodeTableWord 32 0x24ABCDEF = some .ret := by decide

theorem witness_MemoryIsOneWordPerAddress :
    (Memory.mk [(0, 7), (0xFFFFFFFF, 9)]).wf = true ∧ (0xFFFFFFFE : Word) ≠ 0xFFFFFFFF := by decide

theorem witness_CanonicalMemoriesThatReadAlikeAreEqual :
    (Memory.mk [(5, 7)]).wf = true ∧ (((Memory.mk [(5, 7)]).write 6 1).write 6 0).wf = true ∧
    ∀ a, (Memory.mk [(5, 7)]).read a = (((Memory.mk [(5, 7)]).write 6 1).write 6 0).read a :=
  ⟨by decide, by decide, fun _ => rfl⟩

theorem witness_StoreIsSeenByTheNextFetch :
    let s := at_ 4 0x02050200 [(5, 8), (2, 0x25000000)] [] []
    let t := at_ 4 0x03020008 [(2, 0x25000000)] [] []
    (s.mem.wf = true ∧ s.status = .running ∧ s.endAddr = some 0x1000 ∧ s.pc ≠ 0x1000 ∧
      decodeWith s.cfg.opmap (s.mem.read s.pc) = .instr (.storeind 5 2) ∧ addrIndirect s 5 = s.pc + 4) ∧
    (t.mem.wf = true ∧ t.status = .running ∧ t.endAddr = some 0x1000 ∧ t.pc ≠ 0x1000 ∧
      decodeWith t.cfg.opmap (t.mem.read t.pc) = .instr (.storedir 8 2) ∧ addrDirect 8 = t.pc + 4) := by decide

theorem witness_EveryRegisterIsOrdinaryStorage : (255 : Reg) ≠ 0 := by decide

/-- Both ends of each range of the values of `loadimm`. -/
theorem witness_LoadimmWritesTheSignExtendedImmediate :
    (0x0000 : BitVec 16).signExtend 32 = (0x00000000 : Word) ∧ (0x7FFF : BitVec 16).signExtend 32 = (0x00007FFF : Word) ∧
    (0x8000 : BitVec 16).signExtend 32 = (0xFFFF8000 : Word) ∧
    (0xFFFF : BitVec 16).signExtend 32 = (0xFFFFFFFF : Word) := by decide

theorem witness_StoreindWritesOneCell :
    let s := at_ 4 0x02050200 [(5, 6), (2, 0x99)] [] []
    s.mem.wf = true ∧ (4 : Word) ≠ addrIndirect s 5 := by decide

theorem witness_StoredirWritesOneCell :
    (at_ 4 0x0302FFFF [(2, 0x77)] [] []).mem.wf = true ∧ (0xFFFF : Word) = addrDirect ((0xFFFF : BitVec 16).setWidth 32) ∧
    (0xFFFFFFFF : Word) ≠ addrDirect ((0xFFFF : BitVec 16).setWidth 32) := by decide

/-- The overflow clause, and the clause of every other quotient at the same dividend. -/
theorem witness_DivTruncatesTowardZero :
    let s := at_ 4 0x13030102 [(1, 0x80000000), (2, 0xFFFFFFFF)] [] []
    let t := at_ 4 0x13030102 [(1, 0x80000000), (2, 1)] [] []
    (s.reg 2 ≠ 0 ∧ s.reg 1 = 0x80000000 ∧ s.reg 2 = 0xFFFFFFFF) ∧
    (t.reg 2 ≠ 0 ∧ ¬(t.reg 1 = 0x80000000 ∧ t.reg 2 = 0xFFFFFFFF)) := by decide

theorem witness_DivByZeroIsFatalByDefault : State.reset.cfg.div0 = .fatal ∧ State.reset.reg 2 = 0 := by decide

theorem witness_DivByZeroGivesTheConfiguredValue :
    let s := { State.reset with cfg := { Config.default with div0 := .value 0xFFFFFFFF } }
    s.cfg.div0 = .value 0xFFFFFFFF ∧ s.reg 2 = 0 := by decide

/-- An aligned and a misaligned target, at both ends of the offset. -/
theorem witness_JumpGoesToPcPlusOffset :
    let s := at_ 4 0 [] [] []
    Aligned (s.pc + (0x800000 : BitVec 24).signExtend 32) ∧ ¬Aligned (s.pc + (0x7FFFFF : BitVec 24).signExtend 32) := by
  decide

theorem witness_JumpdGoesToPcPlusRegister :
    let s := at_ 4 0 [(1, 0x80000000), (2, 0xFFFFFFFF)] [] []
    Aligned (s.pc + s.reg 1) ∧ ¬Aligned (s.pc + s.reg 2) := by decide

theorem witness_ConditionalJumpsTestTheRegister :
    let s := at_ 4 0 [(1, 0x80000000), (2, 8), (3, 9)] [] []
    s.reg 0 = 0 ∧ s.reg 1 ≠ 0 ∧ Aligned (s.pc + (0x8000 : BitVec 16).signExtend 32) ∧
    ¬Aligned (s.pc + (0x7FFF : BitVec 16).signExtend 32) ∧ Aligned (s.pc + s.reg 2) ∧ ¬Aligned (s.pc + s.reg 3) := by
  decide

theorem witness_RetPopsIntoThePc :
    (at_ 4 0 [] [] [0x30, 8]).rstack = 0x30 :: [8] ∧ (at_ 4 0 [] [] []).rstack = [] := by decide

/-- An unbounded stack, one below full and one full. -/
theorem witness_BranchPushesThenJumps :
    let s := at_ 4 0 [] [] [8]
    let two := { s with cfg := { s.cfg with rsDepth := some 2 } }
    let one := { s with cfg := { s.cfg with rsDepth := some 1 } }
    ¬Aligned (s.pc + (0x7FFFFF : BitVec 24).signExtend 32) ∧ Aligned (s.pc + (0x800000 : BitVec 24).signExtend 32) ∧
    s.cfg.rsDepth = none ∧ (two.cfg.rsDepth = some 2 ∧ two.rstack.length < 2) ∧
    (one.cfg.rsDepth = some 1 ∧ 1 ≤ one.rstack.length) := by decide

theorem witness_BranchifGatesThePushAndTheJump :
    let s := at_ 4 0 [(1, 0x80000000)] [] [8]
    let one := { s with cfg := { s.cfg with rsDepth := some 1 } }
    s.reg 0 = 0 ∧ s.reg 1 ≠ 0 ∧ ¬Aligned (s.pc + (0x7FFF : BitVec 16).signExtend 32) ∧
    Aligned (s.pc + (0x8000 : BitVec 16).signExtend 32) ∧ s.cfg.rsDepth = none ∧ one.reg 1 ≠ 0 ∧
    (one.cfg.rsDepth = some 1 ∧ 1 ≤ one.rstack.length) := by decide

theorem witness_BranchifdGatesThePushAndTheJump :
    let s := at_ 4 0 [(1, 0x80000000), (2, 8), (3, 9)] [] [8]
    let one := { s with cfg := { s.cfg with rsDepth := some 1 } }
    s.reg 0 = 0 ∧ s.reg 1 ≠ 0 ∧ ¬Aligned (s.pc + s.reg 3) ∧ Aligned (s.pc + s.reg 2) ∧ s.cfg.rsDepth = none ∧
    one.reg 1 ≠ 0 ∧ Aligned (one.pc + one.reg 2) ∧ (one.cfg.rsDepth = some 1 ∧ 1 ≤ one.rstack.length) := by decide

/-- A branch that pushes, and a later state with the same stack. -/
theorem witness_BranchThenReturn :
    ∃ (i : Instr) (s t u : State), exec i s = .next t ∧ t.rstack ≠ s.rstack ∧ i ≠ .ret ∧ u.rstack = t.rstack :=
  ⟨.branch 16, at_ 4 0 [] [] [8], { at_ 4 0 [] [] [8] with pc := 0x14, rstack := [8, 8] },
    at_ 0x1C 0x24000000 [(7, 1)] [] [8, 8], rfl, by decide, by decide, by decide⟩

theorem witness_OnlyRetPopsOnlyBranchesPush :
    (∃ s t, exec .ret s = .next t ∧ t.rstack ≠ s.rstack) ∧ (∃ s t, exec (.branch 8) s = .next t ∧ t.rstack ≠ s.rstack) ∧
    (∃ s t, exec (.branchif 1 8) s = .next t ∧ t.rstack ≠ s.rstack) ∧
    ∃ s t, exec (.branchifd 1 2) s = .next t ∧ t.rstack ≠ s.rstack :=
  ⟨⟨at_ 4 0 [] [] [8], { at_ 4 0 [] [] [] with pc := 8 }, rfl, by decide⟩,
    ⟨at_ 4 0 [] [] [], { at_ 4 0 [] [] [] with pc := 0x0C, rstack := [8] }, rfl, by decide⟩,
    ⟨at_ 4 0 [(1, 1)] [] [], { at_ 4 0 [(1, 1)] [] [] with pc := 0x0C, rstack := [8] }, rfl, by decide⟩,
    ⟨at_ 4 0 [(1, 1), (2, 8)] [] [], { at_ 4 0 [(1, 1), (2, 8)] [] [] with pc := 0x0C, rstack := [8] }, rfl,
      by decide⟩⟩

/-- The last amount inside and the first outside. -/
theorem witness_ShiftsByTheWholeRegister :
    let s := at_ 4 0 [(3, 31), (4, 32)] [] []
    (s.reg 3).toNat ≤ 31 ∧ 31 < (s.reg 4).toNat := by decide

/-- The signed boundaries: 32, the largest, the least and -1. -/
theorem witness_ShiftPoliciesOutsideTheRange :
    (31 < (32 : Word).toNat ∧ 0 ≤ (32 : Word).toInt) ∧ (31 < (0x7FFFFFFF : Word).toNat ∧ 0 ≤ (0x7FFFFFFF : Word).toInt) ∧
    (31 < (0x80000000 : Word).toNat ∧ (0x80000000 : Word).toInt < 0) ∧
    (31 < (0xFFFFFFFF : Word).toNat ∧ (0xFFFFFFFF : Word).toInt < 0) := by decide

/-- Equal and unequal operands whose signed and unsigned orders differ. -/
theorem witness_ComparisonsAreSigned :
    let s := at_ 4 0 [(1, 0x80000000), (2, 0x7FFFFFFF)] [] []
    (s.reg 1).toInt < (s.reg 2).toInt ∧ (s.reg 1).toInt ≤ (s.reg 1).toInt := by decide

/-- A register writer that goes on, and the `div` that raises. -/
theorem witness_RegisterWritersFrame :
    (∃ s t, destination (.add 3 1 2) = some 3 ∧ exec (.add 3 1 2) s = .next t) ∧
    ∃ s t, destination (.div 3 1 2) = some 3 ∧ exec (.div 3 1 2) s = .next t ∧ t.status = .halted .divisionByZero :=
  ⟨⟨State.reset, _, rfl, rfl⟩, ⟨State.reset, _, rfl, rfl, rfl⟩⟩

theorem witness_StoresFrame :
    (∃ s t, exec (.storeind 5 2) s = .next t ∧ (7 : Word) = addrIndirect s 5) ∧
    ∃ s t, exec (.storedir 0xFFFF 2) s = .next t ∧ (0xFFFF : Word) = addrDirect 0xFFFF :=
  ⟨⟨at_ 4 0 [(5, 7)] [] [], _, rfl, by decide⟩, ⟨at_ 4 0 [] [] [], _, rfl, by decide⟩⟩

theorem witness_ControlFrame :
    (∃ s t, isControl (.jump 4) = true ∧ exec (.jump 4) s = .next t) ∧
    ∃ s t, isControl .end_ = true ∧ exec .end_ s = .next t :=
  ⟨⟨State.reset, _, rfl, rfl⟩, ⟨State.reset, _, rfl, rfl⟩⟩

/-- A cell that a store changes, each store. -/
theorem witness_OnlyStoresChangeMemory :
    (∃ s t, s.mem.wf = true ∧ step s = .next t ∧ t.mem.read 6 ≠ s.mem.read 6) ∧
    ∃ s t, s.mem.wf = true ∧ step s = .next t ∧ t.mem.read 0xFFFF ≠ s.mem.read 0xFFFF :=
  ⟨⟨at_ 4 0x02050200 [(5, 6), (2, 0x99)] [] [], _, by decide, step_after (by decide), by decide⟩,
    ⟨at_ 4 0x0302FFFF [(2, 0x77)] [] [], _, by decide, step_after (by decide), by decide⟩⟩

end Sys2Proof.Tests
end

section
/-! END_ADDR and the parameters are constant during a run (spec/00_scope.md R8, spec/70_reset_and_hazards.md R204). -/

namespace Sys2Proof.Machine

/-- END_ADDR and the parameters of `t` are those of `s`. -/
def SameRunParameters (s t : State) : Prop := t.endAddr = s.endAddr ∧ t.cfg = s.cfg

theorem sameRunParameters_halt (s : State) (c : HaltCause) : SameRunParameters s (s.halt c) :=
  ⟨halt_endAddr s c, halt_cfg s c⟩

/-- Only a halt is an operation of its own here: every other form of execution is an update of the registers, the pc, the
memory or the return stack, and of no further field. -/
theorem Executes.sameRunParameters {i : Instr} {s t : State} (h : Executes i s t) : SameRunParameters s t := by
  cases h with
  | writes _ _ _ ht | storesIndirect _ _ _ ht | storesDirect _ _ _ ht | fallsThrough _ ht | jumps _ _ _ _ ht
  | calls _ _ _ _ _ ht | returns _ _ _ _ ht =>
    subst ht
    exact ⟨rfl, rfl⟩
  | halts c ht _ =>
    subst ht
    exact sameRunParameters_halt s c

/-- A step is a halt of the front (end of program, or one of the two decode failures) or the execution of one instruction. -/
theorem step_sameRunParameters {s t : State} (h : step s = .next t) : SameRunParameters s t := by
  obtain ⟨-, e, -, ⟨-, rfl⟩ | ⟨-, ⟨i, -, hexec⟩ | ⟨-, rfl⟩ | ⟨-, rfl⟩⟩⟩ := step_next_cases h
  · exact sameRunParameters_halt s .pcExhausted
  · exact (exec_executes hexec).sameRunParameters
  · exact sameRunParameters_halt s .invalidCategory
  · exact sameRunParameters_halt s .invalidOpcode

/-- Settles O18: the front of a step at most halts, and no form of execution touches END_ADDR or the parameters. -/
theorem runParametersNeverChange : Obligations.RunParametersNeverChange :=
  fun _ _ h => step_sameRunParameters h

end Sys2Proof.Machine
end

section
/-! The reset state, a program's start, the states without a step, and the register file (spec/10_state.md R10, R11, R19,
R25, R27; spec/70_reset_and_hazards.md R202 to R206). -/

namespace Sys2Proof.Machine

/-! ### States without a step -/

theorem step_of_halted {s : State} {c : HaltCause} (h : s.status = .halted c) : step s = .fault .noStepWhenHalted := by
  simp only [step, frontOfStep, h]

theorem step_of_noProgram {s : State} (hr : s.status = .running) (he : s.endAddr = none) :
    step s = .refused .noProgramLoaded := by
  simp only [step, frontOfStep, hr, he]

/-- Settles O14: the front of a step tests the status first and END_ADDR next. -/
theorem noStepWhenHaltedOrWithoutProgram : Obligations.NoStepWhenHaltedOrWithoutProgram :=
  fun _ => ⟨fun _ => step_of_halted, step_of_noProgram⟩

/-! ### The start of a run -/

/-- Where nothing has run yet, the memory alone can break the invariant. -/
theorem inv_of_start {s : State} (hpc : s.pc = 0) (hstack : s.rstack = []) (hrun : s.status = .running)
    (hmem : s.mem.wf = true) : s.Inv where
  pcAligned := by rw [hpc]; rfl
  stackAligned := by simp [hstack]
  memCanonical := hmem
  stackBounded := by simp [hstack]
  failureRecorded := by simp [hrun]

/-- Settles O21: the empty list of cells is canonical. -/
theorem resetMeetsTheInvariant : Obligations.ResetMeetsTheInvariant :=
  inv_of_start rfl rfl rfl rfl

theorem reset_reg (r : Reg) : State.reset.reg r = 0 :=
  Vector.getElem_replicate r.isLt

/-- Settles O23: the register file is a replicated 0, and no cell is listed. -/
theorem resetValues : Obligations.ResetValues :=
  ⟨reset_reg, rfl, rfl, rfl, read_empty, rfl⟩

/-- Where boot answers a state, it is the reset state with a program of at most 2^30 words. -/
theorem boot_next {c : Config} {file : List Byte} {s : State} (h : State.boot c file = .next s) :
    ∃ words : List Word, words.length ≤ 2 ^ 30 ∧ s = State.bootWords c words := by
  unfold State.boot at h
  split at h
  · cases h
  · cases h
  · rename_i w rest _
    split at h
    · cases h
      exact ⟨w :: rest, by assumption, rfl⟩
    · cases h

/-- Settles O22: a booted state is at the start of a run, and its image lists rising addresses below 2^32. -/
theorem bootMeetsTheInvariant : Obligations.BootMeetsTheInvariant := by
  intro c file s h
  obtain ⟨words, hlen, rfl⟩ := boot_next h
  exact ⟨inv_of_start rfl rfl rfl (bootWords_mem_wf c words hlen), rfl, rfl⟩

/-! ### The register file -/

/-- Settles O31: what a register reads as after a write to a register does not depend on their numbers. -/
theorem everyRegisterIsOrdinaryStorage : Obligations.EveryRegisterIsOrdinaryStorage :=
  fun s r v => ⟨by rw [reg_setReg, if_pos rfl], fun q hq => by rw [reg_setReg, if_neg hq]⟩

end Sys2Proof.Machine
end

section
/-! The invariant of spec/10_state.md R27 is kept by every step. -/

namespace Sys2Proof.Machine

/-- Going on by 4 keeps alignment, also where it wraps (the spec's decision D10). -/
theorem aligned_add_four {a : Word} (h : Aligned a) : Aligned (a + 4) := by
  have hadd : (a + 4).toNat = (a.toNat + 4) % 2 ^ 32 := BitVec.toNat_add a 4
  simp only [Aligned] at h ⊢
  omega

/-- A stack that is not full has room for one more entry. -/
theorem length_lt_of_not_stackFull {s : State} (h : s.stackFull = false) {d : Nat} (hd : s.cfg.rsDepth = some d) :
    s.rstack.length < d := by
  by_contra hle
  have hfull : s.stackFull = true := (stackFull_iff s).mpr ⟨d, hd, Nat.le_of_not_lt hle⟩
  simp [h] at hfull

/-- A halt moves nothing, and a failure records pc and word (60_exceptions.md R176). -/
theorem State.Inv.halt {s : State} (hs : s.Inv) (c : HaltCause) : (s.halt c).Inv where
  pcAligned := by simpa using hs.pcAligned
  stackAligned := by simpa using hs.stackAligned
  memCanonical := by simpa using hs.memCanonical
  stackBounded := by simpa using hs.stackBounded
  failureRecorded := by
    intro c' hc hf
    obtain rfl : c = c' := by simpa using hc
    simp [halt_diagPc, halt_diagWord, hf, State.fetchWord]

/-- The invariant of a running state, in which there is no failure to record. -/
theorem inv_of_running {s : State} (hrun : s.status = .running) (hpc : Aligned s.pc)
    (hstack : ∀ a ∈ s.rstack, Aligned a) (hmem : s.mem.wf = true)
    (hbound : ∀ d, s.cfg.rsDepth = some d → s.rstack.length ≤ d) : s.Inv where
  pcAligned := hpc
  stackAligned := hstack
  memCanonical := hmem
  stackBounded := hbound
  failureRecorded := by simp [hrun]

/-- Every form of execution keeps the invariant: a taken transfer has tested its target, a taken branch the capacity too,
and a return goes to an entry of the stack. -/
theorem Executes.inv {i : Instr} {s t : State} (h : Executes i s t) (hrun : s.status = .running) (hs : s.Inv) : t.Inv := by
  have ⟨hpc, hstack, hmem, hbound, _⟩ := hs
  cases h with
  | writes _ _ _ ht | fallsThrough _ ht =>
    subst ht
    exact inv_of_running hrun (aligned_add_four hpc) hstack hmem hbound
  | storesIndirect _ _ _ ht | storesDirect _ _ _ ht =>
    subst ht
    exact inv_of_running hrun (aligned_add_four hpc) hstack (write_wf _ _ hmem) hbound
  | jumps off _ _ haligned ht =>
    subst ht
    exact inv_of_running hrun haligned hstack hmem hbound
  | calls off _ _ haligned hfree ht =>
    subst ht
    exact inv_of_running hrun haligned (List.forall_mem_cons.mpr ⟨aligned_add_four hpc, hstack⟩) hmem
      fun d hd => length_lt_of_not_stackFull hfree hd
  | returns top rest _ hpop ht =>
    subst ht
    rw [hpop] at hstack hbound
    obtain ⟨htop, hrest⟩ := List.forall_mem_cons.mp hstack
    exact inv_of_running hrun htop hrest hmem fun d hd => Nat.le_of_succ_le (hbound d hd)
  | halts c ht _ =>
    subst ht
    exact hs.halt c

/-- Settles O20: a step is a halt of the front or the execution of one instruction in a running state. -/
theorem stepKeepsTheInvariant : Obligations.StepKeepsTheInvariant := by
  intro s t hs h
  obtain ⟨hrun, e, -, ⟨-, rfl⟩ | ⟨-, ⟨i, -, hexec⟩ | ⟨-, rfl⟩ | ⟨-, rfl⟩⟩⟩ := step_next_cases h
  · exact hs.halt .pcExhausted
  · exact (exec_executes hexec).inv hrun hs
  · exact hs.halt .invalidCategory
  · exact hs.halt .invalidOpcode

end Sys2Proof.Machine
end

section
/-! Noninterference of the diagnostic outputs (spec/10_state.md R22): replacing them before a step replaces them after it,
unless the step fails and records its own. -/

namespace Sys2Proof.Machine

/-- The state with other diagnostic outputs. -/
def State.withDiag (s : State) (p w : Word) : State := { s with diagPc := p, diagWord := w }

/-- What a replacement of the diagnostic outputs before a step makes of its outcome: a failure has recorded its own values,
every other next state carries the replaced ones. -/
def carried (p w : Word) : Host.Outcome State Fault Refusal → Host.Outcome State Fault Refusal
  | .next t => .next (if t.status.isFailure then t else t.withDiag p w)
  | .fault f => .fault f
  | .refused r => .refused r

@[simp] theorem withDiag_pc (s : State) (p w : Word) : (s.withDiag p w).pc = s.pc := rfl
@[simp] theorem withDiag_rstack (s : State) (p w : Word) : (s.withDiag p w).rstack = s.rstack := rfl
@[simp] theorem withDiag_status (s : State) (p w : Word) : (s.withDiag p w).status = s.status := rfl
@[simp] theorem withDiag_cfg (s : State) (p w : Word) : (s.withDiag p w).cfg = s.cfg := rfl
@[simp] theorem withDiag_reg (s : State) (p w : Word) (r : Reg) : (s.withDiag p w).reg r = s.reg r := rfl
@[simp] theorem withDiag_stackFull (s : State) (p w : Word) : (s.withDiag p w).stackFull = s.stackFull := rfl
@[simp] theorem withDiag_fetchWord (s : State) (p w : Word) : (s.withDiag p w).fetchWord = s.fetchWord := rfl

theorem carried_of_failure {t : State} (h : t.status.isFailure = true) (p w : Word) :
    carried p w (.next t) = .next t :=
  congrArg Host.Outcome.next (if_pos h)

theorem carried_of_noFailure {t : State} (h : t.status.isFailure = false) (p w : Word) :
    carried p w (.next t) = .next (t.withDiag p w) :=
  congrArg Host.Outcome.next (if_neg (by rw [h]; decide))

theorem carried_of_running {t : State} (h : t.status = .running) (p w : Word) :
    carried p w (.next t) = .next (t.withDiag p w) :=
  carried_of_noFailure (by rw [h]; rfl) p w

theorem carried_halt (s : State) (c : HaltCause) (p w : Word) :
    carried p w (.next (s.halt c)) = .next ((s.withDiag p w).halt c) := by
  have hstatus : (s.halt c).status.isFailure = c.isFailure := by rw [halt_status]; rfl
  cases hf : c.isFailure with
  | true =>
    rw [carried_of_failure (hstatus.trans hf), halt_eq, halt_eq, hf]
    rfl
  | false =>
    rw [carried_of_noFailure (hstatus.trans hf), halt_eq, halt_eq, hf]
    rfl

/-! ### The operations the meanings are built of -/

section
variable {s : State} {p w : Word}

theorem retire_continue_withDiag {t : State} (hrun : t.status = .running) :
    retire (s.withDiag p w) (.continue_ (t.withDiag p w)) = carried p w (retire s (.continue_ t)) :=
  (carried_of_running (t := { t with pc := s.nextPc }) hrun p w).symm

theorem retire_jumped_withDiag {t : State} (hrun : t.status = .running) (target : Word) :
    retire (s.withDiag p w) (.jumped (t.withDiag p w) target) = carried p w (retire s (.jumped t target)) :=
  (carried_of_running (t := { t with pc := target }) hrun p w).symm

theorem retire_halted_withDiag (c : HaltCause) :
    retire (s.withDiag p w) (.halted c) = carried p w (retire s (.halted c)) :=
  (carried_halt s c p w).symm

theorem writeResult_withDiag (hrun : s.status = .running) (rd : Reg) (v : Word) :
    writeResult rd v (s.withDiag p w) = carried p w (writeResult rd v s) :=
  retire_continue_withDiag (t := s.setReg rd v) hrun

theorem writeCell_withDiag (hrun : s.status = .running) (a v : Word) :
    writeCell a v (s.withDiag p w) = carried p w (writeCell a v s) :=
  retire_continue_withDiag (t := s.store a v) hrun

theorem takeJump_withDiag (hrun : s.status = .running) (off : Word) :
    retire (s.withDiag p w) (takeJump (s.withDiag p w) off) = carried p w (retire s (takeJump s off)) := by
  rw [takeJump_eq, takeJump_eq, withDiag_pc]
  by_cases haligned : (s.pc + off).toNat % 4 = 0
  · simp only [if_pos haligned]
    exact retire_jumped_withDiag hrun _
  · simp only [if_neg haligned]
    exact retire_halted_withDiag .misalignedTarget

theorem takeBranch_withDiag (hrun : s.status = .running) (off : Word) :
    retire (s.withDiag p w) (takeBranch (s.withDiag p w) off) = carried p w (retire s (takeBranch s off)) := by
  rw [takeBranch_eq, takeBranch_eq, withDiag_pc, withDiag_stackFull]
  by_cases haligned : (s.pc + off).toNat % 4 = 0
  · simp only [if_pos haligned]
    split
    · exact retire_halted_withDiag .returnStackOverflow
    · exact retire_jumped_withDiag (t := s.push (s.pc + 4)) hrun _
  · simp only [if_neg haligned]
    exact retire_halted_withDiag .misalignedTarget

theorem gated_withDiag (hrun : s.status = .running) {r r' : StepResult} (rcond : Reg)
    (h : retire (s.withDiag p w) r' = carried p w (retire s r)) :
    retire (s.withDiag p w) (gated (s.withDiag p w) rcond r') = carried p w (retire s (gated s rcond r)) := by
  rw [gated_eq, gated_eq, withDiag_reg]
  by_cases hcond : s.reg rcond = 0
  · simp only [if_pos hcond]
    exact retire_continue_withDiag hrun
  · simp only [if_neg hcond]
    exact h

theorem execDiv_withDiag (hrun : s.status = .running) (rd rs1 rs2 : Reg) :
    execDiv rd rs1 rs2 (s.withDiag p w) = carried p w (execDiv rd rs1 rs2 s) := by
  simp only [execDiv, withDiag_cfg, withDiag_reg]
  cases aluDiv s.cfg.div0 (s.reg rs1) (s.reg rs2) with
  | some q => exact writeResult_withDiag hrun rd q
  | none => exact retire_halted_withDiag .divisionByZero

theorem execRet_withDiag (hrun : s.status = .running) : execRet (s.withDiag p w) = carried p w (execRet s) := by
  simp only [execRet, withDiag_rstack]
  cases s.rstack with
  | nil => exact retire_continue_withDiag hrun
  | cons top rest => exact retire_jumped_withDiag (t := { s with rstack := rest }) hrun top

/-- No meaning reads the diagnostic outputs. -/
theorem exec_withDiag (hrun : s.status = .running) (i : Instr) :
    exec i (s.withDiag p w) = carried p w (exec i s) := by
  cases i with
  | storeind | storedir => exact writeCell_withDiag hrun _ _
  | div rd rs1 rs2 => exact execDiv_withDiag hrun rd rs1 rs2
  | jump | jumpd => exact takeJump_withDiag hrun _
  | jumpif rcond | jumpifd rcond => exact gated_withDiag hrun rcond (takeJump_withDiag hrun _)
  | ret => exact execRet_withDiag hrun
  | end_ => exact retire_halted_withDiag .ended
  | branch => exact takeBranch_withDiag hrun _
  | branchif rcond | branchifd rcond => exact gated_withDiag hrun rcond (takeBranch_withDiag hrun _)
  | loadimm | loadind | loaddir | add | sub | mul | and | or | nand | nor | xor | lsl | lsr | lt | lte | gt | gte | eq =>
    exact writeResult_withDiag hrun _ _

end

/-! ### The step -/

/-- A step with other diagnostic outputs has the outcome that carries them. -/
theorem step_withDiag (s : State) (p w : Word) : step (s.withDiag p w) = carried p w (step s) := by
  cases hrun : s.status with
  | halted c =>
    rw [step_of_halted hrun, step_of_halted ((withDiag_status s p w).trans hrun)]
    rfl
  | running =>
    have hrun' : (s.withDiag p w).status = .running := hrun
    cases hend : s.endAddr with
    | none =>
      rw [step_of_noProgram hrun hend, step_of_noProgram hrun' hend]
      rfl
    | some e =>
      rw [step_running hrun hend, step_running hrun' hend, withDiag_pc, withDiag_cfg, withDiag_fetchWord]
      split
      · exact (carried_halt s .pcExhausted p w).symm
      · cases decodeWith s.cfg.opmap s.fetchWord with
        | instr i => exact exec_withDiag hrun i
        | invalidCategory => exact (carried_halt s .invalidCategory p w).symm
        | invalidOpcode => exact (carried_halt s .invalidOpcode p w).symm

/-- A step that does not fail leaves the diagnostic outputs, because it carries the replacement of them by themselves. -/
theorem step_keeps_diag {s t : State} (h : step s = .next t) (hf : t.status.isFailure = false) :
    t.diagPc = s.diagPc ∧ t.diagWord = s.diagWord := by
  have hself : step s = carried s.diagPc s.diagWord (step s) := step_withDiag s s.diagPc s.diagWord
  rw [h, carried_of_noFailure hf] at hself
  have ht : t = t.withDiag s.diagPc s.diagWord := Host.Outcome.next.inj hself
  rw [ht]
  exact ⟨rfl, rfl⟩

/-- Settles O19: the replaced values are carried by a step that does not fail, and by no other. -/
theorem diagnosticsAreNeverRead : Obligations.DiagnosticsAreNeverRead := by
  intro s p w
  have hcarried : step { s with diagPc := p, diagWord := w } = carried p w (step s) := step_withDiag s p w
  cases hstep : step s with
  | next t =>
    rw [hstep] at hcarried
    cases hf : t.status.isFailure with
    | true =>
      rw [carried_of_failure hf] at hcarried
      exact ⟨t.diagPc, t.diagWord, hcarried, fun _ => ⟨rfl, rfl⟩, fun h => absurd (hf.symm.trans h) (by decide)⟩
    | false =>
      rw [carried_of_noFailure hf] at hcarried
      exact ⟨p, w, hcarried, fun h => absurd (hf.symm.trans h) (by decide), fun _ => ⟨rfl, rfl, step_keeps_diag hstep hf⟩⟩
  | fault f => exact hcarried.trans (congrArg (carried p w) hstep)
  | refused r => exact hcarried.trans (congrArg (carried p w) hstep)

end Sys2Proof.Machine
end

section
/-! What an instruction leaves unchanged (spec/10_state.md R13, R16, R17; spec/20_memory.md R33, R34). -/

namespace Sys2Proof.Machine

/-! ### The classes of instructions exclude each other -/

theorem isControl_of_isBranch {i : Instr} (h : isBranch i = true) : isControl i = true := by
  cases i <;> trivial

theorem isControl_of_transferOffset {s : State} {i : Instr} {off : Word} (h : transferOffset s i = some off) :
    isControl i = true := by
  cases i <;> trivial

theorem destination_of_isControl {i : Instr} (h : isControl i = true) : destination i = none := by
  cases i <;> trivial

/-! ### The return stack -/

/-- A branch that makes a transfer is unconditional or has found its condition register true (43_control.md R126). -/
theorem branch_of_transferOffset {s : State} {i : Instr} {off : Word} (hb : isBranch i = true)
    (ho : transferOffset s i = some off) :
    (∃ off, i = .branch off) ∨
      ∃ rcond, s.reg rcond ≠ 0 ∧ ((∃ off, i = .branchif rcond off) ∨ ∃ rs, i = .branchifd rcond rs) := by
  cases i with
  | branch off => exact .inl ⟨off, rfl⟩
  | branchif rcond imm => exact .inr ⟨rcond, by simp_all [transferOffset], .inl ⟨imm, rfl⟩⟩
  | branchifd rcond rs => exact .inr ⟨rcond, by simp_all [transferOffset], .inr ⟨rs, rfl⟩⟩
  | _ => cases hb

/-- Settles O50: of the forms of execution only a call and a return update the return stack. -/
theorem onlyRetPopsOnlyBranchesPush : Obligations.OnlyRetPopsOnlyBranchesPush := by
  intro i s t h hne
  cases exec_executes h with
  | writes _ _ _ ht | storesIndirect _ _ _ ht | storesDirect _ _ _ ht | fallsThrough _ ht | jumps _ _ _ _ ht =>
    subst ht
    exact absurd rfl hne
  | calls off hb ho _ _ ht =>
    subst ht
    exact .inr ⟨rfl, branch_of_transferOffset hb ho⟩
  | returns top rest hi hpop ht =>
    subst ht
    exact .inl ⟨hi, hpop⟩
  | halts c ht _ =>
    subst ht
    exact absurd (halt_rstack s c) hne

/-! ### Register writers -/

/-- An instruction with a destination writes it and goes on, or is a `div` that raises. -/
theorem exec_of_destination {i : Instr} {s t : State} {rd : Reg} (hd : destination i = some rd)
    (h : exec i s = .next t) :
    (∃ v, t = { s.setReg rd v with pc := s.pc + 4 }) ∨
      t = s.halt .divisionByZero ∧ ∃ rs1 rs2, i = .div rd rs1 rs2 ∧ s.reg rs2 = 0 ∧ s.cfg.div0 = .fatal := by
  have hnotControl : isControl i ≠ true := fun hc => by simp [destination_of_isControl hc] at hd
  cases exec_executes h with
  | writes rd' v hd' ht =>
    obtain rfl : rd' = rd := Option.some.inj (hd'.symm.trans hd)
    exact .inl ⟨v, ht⟩
  | storesIndirect _ _ hi _ | storesDirect _ _ hi _ | returns _ _ hi _ _ =>
    subst hi
    cases hd
  | fallsThrough hc _ | jumps _ hc _ _ _ => exact absurd hc hnotControl
  | calls _ hb _ _ _ _ => exact absurd (isControl_of_isBranch hb) hnotControl
  | halts c ht hc =>
    obtain ⟨rfl, -⟩ | ⟨⟨rd', rs1, rs2, rfl, hzero⟩, hfatal, rfl⟩ | ⟨off, ho, -⟩ | ⟨off, hb, -⟩ := hc
    · cases hd
    · cases hd
      exact .inr ⟨ht, rs1, rs2, rfl, hzero, hfatal⟩
    · exact absurd (isControl_of_transferOffset ho) hnotControl
    · exact absurd (isControl_of_isBranch hb) hnotControl

/-- Settles O56: a register write reads back as before at every other register, and a halt moves nothing. -/
theorem registerWritersFrame : Obligations.RegisterWritersFrame := by
  intro i s t rd hd h
  obtain ⟨v, rfl⟩ | ⟨rfl, hraises⟩ := exec_of_destination hd h
  · exact ⟨fun r hr => (reg_setReg s rd r v).trans (if_neg hr), fun _ => rfl, rfl, rfl, rfl, .inl ⟨rfl, rfl, rfl, rfl⟩⟩
  · exact ⟨fun r _ => reg_of_regs (halt_regs s _) r, fun a => by rw [halt_mem], halt_rstack s _, halt_endAddr s _,
      halt_cfg s _, .inr ⟨halt_regs s _, halt_pc s _, halt_status s _, halt_diagPc s _, halt_diagWord s _, hraises⟩⟩

/-! ### Stores -/

/-- Either store writes one cell and goes on. -/
theorem exec_of_store {i : Instr} {s t : State} {addr : Word} {raddr rs : Reg} (h : exec i s = .next t)
    (hi : (i = .storeind raddr rs ∧ addr = addrIndirect s raddr) ∨ ∃ a, i = .storedir a rs ∧ addr = addrDirect a) :
    t = { s with mem := s.mem.write addr (s.reg rs), pc := s.pc + 4 } := by
  have hwrite : writeCell addr (s.reg rs) s = .next t := by
    obtain ⟨rfl, rfl⟩ | ⟨a, rfl, rfl⟩ := hi <;> exact h
  rw [writeCell_eq] at hwrite
  exact (Host.Outcome.next.inj hwrite).symm

/-- Settles O57: the one cell written is the only one that reads otherwise. -/
theorem storesFrame : Obligations.StoresFrame := by
  intro i s t addr raddr rs h hi
  obtain rfl := exec_of_store h hi
  exact ⟨rfl, rfl, rfl, rfl, rfl, rfl, rfl, rfl, fun a ha => read_write_ne s.mem (s.reg rs) ha⟩

end Sys2Proof.Machine
end

section
/-! The memory (spec/20_memory.md R31, R34, R36, R37, R41): its cells, a store and the fetch of the next step, and the cells
a step changes. -/

namespace Sys2Proof.Machine

/-! ### A write and a read -/

/-- What a cell reads as after a write to a cell (20_memory.md R31). -/
theorem read_write {m : Memory} (h : m.wf = true) (a b v : Word) :
    (m.write a v).read b = if a = b then v else m.read b := by
  split
  · subst a
    exact read_write_self h
  · exact read_write_ne m v (Ne.symm ‹_›)

/-- Settles O28: a write is read back in its own cell and in no other, and keeps the cells canonical. -/
theorem memoryIsOneWordPerAddress : Obligations.MemoryIsOneWordPerAddress :=
  ⟨fun m a v h => ⟨read_write_self h, fun _ hb => read_write_ne m v hb, write_wf a v h⟩, read_empty⟩

/-! ### The canonical form -/

theorem cellsRead_head (c : Nat × Word) (rest : List (Nat × Word)) : cellsRead (c :: rest) c.1 = c.2 :=
  if_pos rfl

theorem cellsRead_tail {c : Nat × Word} {k : Nat} (h : c.1 ≠ k) (rest : List (Nat × Word)) :
    cellsRead (c :: rest) k = cellsRead rest k :=
  if_neg h

theorem cellsCanonical_cons {c : Nat × Word} {rest : List (Nat × Word)} :
    cellsCanonical (c :: rest) = true ↔ c.1 < 2 ^ 32 ∧ c.2 ≠ unlistedCell ∧ cellsAbove c.1 rest = true := by
  simp only [cellsCanonical, Bool.and_eq_true, decide_eq_true_eq, and_assoc]

/-- A canonical list has no cell below its first key. -/
theorem cellsRead_below_head {c : Nat × Word} {rest : List (Nat × Word)} (h : cellsCanonical (c :: rest) = true) {k : Nat}
    (hk : k < c.1) : cellsRead (c :: rest) k = unlistedCell := by
  obtain ⟨-, -, habove⟩ := cellsCanonical_cons.mp h
  rw [cellsRead_tail (Nat.ne_of_gt hk), cellsRead_above (Nat.le_of_lt hk) habove]

/-- A list that reads at the first key of a canonical one as that one does begins no later. -/
theorem head_le_head {c c' : Nat × Word} {rest rest' : List (Nat × Word)} (h : cellsCanonical (c :: rest) = true)
    (h' : cellsCanonical (c' :: rest') = true) (hread : cellsRead (c :: rest) c.1 = cellsRead (c' :: rest') c.1) :
    c'.1 ≤ c.1 := by
  by_contra hlt
  obtain ⟨-, hlisted, -⟩ := cellsCanonical_cons.mp h
  rw [cellsRead_head, cellsRead_below_head h' (Nat.lt_of_not_le hlt)] at hread
  exact hlisted hread

/-- The first cells of two canonical lists are found by reading, and so the lists are equal cell by cell. -/
theorem eq_of_cellsRead_eq {l l' : List (Nat × Word)} (h : cellsCanonical l = true) (h' : cellsCanonical l' = true)
    (hread : ∀ k, k < 2 ^ 32 → cellsRead l k = cellsRead l' k) : l = l' := by
  induction l generalizing l' with
  | nil =>
    cases l' with
    | nil => rfl
    | cons c' rest' =>
      obtain ⟨hlt', hlisted', -⟩ := cellsCanonical_cons.mp h'
      exact absurd ((cellsRead_head c' rest').symm.trans (hread c'.1 hlt').symm) hlisted'
  | cons c rest ih =>
    obtain ⟨hlt, hlisted, habove⟩ := cellsCanonical_cons.mp h
    cases l' with
    | nil => exact absurd ((cellsRead_head c rest).symm.trans (hread c.1 hlt)) hlisted
    | cons c' rest' =>
      obtain ⟨hlt', -, habove'⟩ := cellsCanonical_cons.mp h'
      have hkey : c.1 = c'.1 :=
        Nat.le_antisymm (head_le_head h' h (hread c'.1 hlt').symm) (head_le_head h h' (hread c.1 hlt))
      have hcell : c = c' := by
        refine Prod.ext hkey ?_
        rw [← cellsRead_head c rest, hread c.1 hlt, hkey, cellsRead_head]
      subst hcell
      have htail : ∀ k, k < 2 ^ 32 → cellsRead rest k = cellsRead rest' k := by
        intro k hk
        by_cases hck : c.1 = k
        · rw [cellsRead_above hck.ge habove, cellsRead_above hck.ge habove']
        · rw [← cellsRead_tail hck rest, hread k hk, cellsRead_tail hck]
      rw [ih (cellsCanonical_of_above habove) (cellsCanonical_of_above habove') htail]

/-- Settles O29: every key below 2^32 is the number of an address. -/
theorem canonicalMemoriesThatReadAlikeAreEqual : Obligations.CanonicalMemoriesThatReadAlikeAreEqual := by
  intro m m' h h' hread
  have hcells : m.cells = m'.cells := eq_of_cellsRead_eq h h' fun k hk => by
    have hk' : (BitVec.ofNat 32 k).toNat = k := Nat.mod_eq_of_lt hk
    simpa only [Memory.read, hk'] using hread (BitVec.ofNat 32 k)
  exact congrArg Memory.mk hcells

/-! ### A store and the next fetch -/

/-- A running step that is not at END_ADDR executes what it decodes (40_step_cycle.md R82). -/
theorem step_of_decode {s : State} {e : Word} {i : Instr} (hrun : s.status = .running) (hend : s.endAddr = some e)
    (hpc : s.pc ≠ e) (hdecode : decodeWith s.cfg.opmap s.fetchWord = .instr i) : step s = exec i s := by
  rw [step_running hrun hend, if_neg hpc, hdecode]

/-- The word after a store's own instruction, as the next step fetches it. -/
theorem writeCell_fetchWord {s : State} (h : s.mem.wf = true) (a v : Word) :
    ∃ t, writeCell a v s = .next t ∧ t.pc = s.pc + 4 ∧
      t.fetchWord = if a = s.pc + 4 then v else s.mem.read (s.pc + 4) :=
  ⟨_, writeCell_eq a v s, rfl, read_write h a (s.pc + 4) v⟩

/-- Settles O30: either store is a write of one cell and goes on to the next pc. -/
theorem storeIsSeenByTheNextFetch : Obligations.StoreIsSeenByTheNextFetch := by
  intro s e h hrun hend hpc
  constructor
  · intro raddr rs hdecode
    rw [step_of_decode hrun hend hpc hdecode]
    exact writeCell_fetchWord h (addrIndirect s raddr) (s.reg rs)
  · intro addr rs hdecode
    rw [step_of_decode hrun hend hpc hdecode]
    exact writeCell_fetchWord h (addrDirect addr) (s.reg rs)

/-! ### The cells a step changes -/

/-- The instruction stores register `rs` at address `a`. -/
def StoresAt (s : State) (i : Instr) (a : Word) (rs : Reg) : Prop :=
  (∃ raddr, i = .storeind raddr rs ∧ a = addrIndirect s raddr) ∨ ∃ addr, i = .storedir addr rs ∧ a = addrDirect addr

/-- Of the forms of execution only the two stores update the memory (20_memory.md R34, R37). -/
theorem Executes.mem {i : Instr} {s t : State} (h : Executes i s t) :
    t.mem = s.mem ∨ ∃ a rs, StoresAt s i a rs ∧ t.mem = s.mem.write a (s.reg rs) := by
  cases h with
  | storesIndirect raddr rs hi ht =>
    subst ht
    exact .inr ⟨addrIndirect s raddr, rs, .inl ⟨raddr, hi, rfl⟩, rfl⟩
  | storesDirect addr rs hi ht =>
    subst ht
    exact .inr ⟨addrDirect addr, rs, .inr ⟨addr, hi, rfl⟩, rfl⟩
  | writes _ _ _ ht | fallsThrough _ ht | jumps _ _ _ _ ht | calls _ _ _ _ _ ht | returns _ _ _ _ ht =>
    subst ht
    exact .inl rfl
  | halts c ht _ =>
    subst ht
    exact .inl (halt_mem s c)

/-- A step leaves the memory, or it executes a store. -/
theorem step_mem {s t : State} (h : step s = .next t) :
    t.mem = s.mem ∨ ∃ i a rs, decodeWith s.cfg.opmap s.fetchWord = .instr i ∧ StoresAt s i a rs ∧
      t.mem = s.mem.write a (s.reg rs) := by
  obtain ⟨-, e, -, ⟨-, rfl⟩ | ⟨-, ⟨i, hdecode, hexec⟩ | ⟨-, rfl⟩ | ⟨-, rfl⟩⟩⟩ := step_next_cases h
  · exact .inl (halt_mem s _)
  · obtain hmem | ⟨a, rs, hstores, hmem⟩ := (exec_executes hexec).mem
    · exact .inl hmem
    · exact .inr ⟨i, a, rs, hdecode, hstores, hmem⟩
  · exact .inl (halt_mem s _)
  · exact .inl (halt_mem s _)

/-- Settles O59: of the one cell written by a store, and of no other, the reading can change. -/
theorem onlyStoresChangeMemory : Obligations.OnlyStoresChangeMemory := by
  intro s t b h hstep hne
  obtain hmem | ⟨i, a, rs, hdecode, hstores, hmem⟩ := step_mem hstep
  · exact absurd (congrArg (Memory.read · b) hmem) hne
  · rw [hmem] at hne ⊢
    obtain rfl : b = a := by_contra fun hba => hne (read_write_ne s.mem (s.reg rs) hba)
    refine ⟨rs, read_write_self h, ?_⟩
    obtain ⟨raddr, rfl, ha⟩ | ⟨addr, rfl, ha⟩ := hstores
    · exact .inl ⟨raddr, hdecode, ha⟩
    · exact .inr ⟨addr, hdecode, ha⟩

end Sys2Proof.Machine
end

section
/-! The operands of an instruction and their fields (spec/30_encoding.md R52 to R61), in both directions. -/

namespace Sys2Proof

/-! ### A converted operand and its field (R61) -/

theorem setWidth_signExtend {n : Nat} (hn : n ≤ 32) (x : BitVec n) : (x.signExtend 32).setWidth n = x := by
  ext i hi
  simp [BitVec.getElem_signExtend, hi, Nat.lt_of_lt_of_le hi hn]

theorem signExtend_setWidth {n : Nat} (hn : n ≤ 32) {v : Word} (hfits : v.toInt.bmod (2 ^ n) = v.toInt) :
    (v.setWidth n).signExtend 32 = v := by
  rw [← BitVec.toInt_inj, BitVec.toInt_signExtend_of_le hn, BitVec.toInt_setWidth,
    ← Int.bmod_bmod_of_dvd (Nat.pow_dvd_pow 2 hn), ← BitVec.toInt_eq_toNat_bmod, hfits]

theorem signExtend_low16 {v : Word} (h : fitsSigned16 v = true) : (low16 v).signExtend 32 = v := by
  simp only [fitsSigned16, Bool.and_eq_true, decide_eq_true_eq] at h
  exact signExtend_setWidth (by decide) (Int.bmod_eq_of_le (by omega) (by omega))

theorem signExtend_low24 {v : Word} (h : fitsSigned24 v = true) : (low24 v).signExtend 32 = v := by
  simp only [fitsSigned24, Bool.and_eq_true, decide_eq_true_eq] at h
  exact signExtend_setWidth (by decide) (Int.bmod_eq_of_le (by omega) (by omega))

theorem setWidth_low16 {v : Word} (h : fitsUnsigned16 v = true) : (low16 v).setWidth 32 = v := by
  simp only [fitsUnsigned16, decide_eq_true_eq] at h
  apply BitVec.eq_of_toNat_eq
  rw [low16, BitVec.toNat_setWidth, BitVec.toNat_setWidth]
  omega

theorem fitsSigned16_signExtend (x : BitVec 16) : fitsSigned16 (x.signExtend 32) = true := by
  have hlo := BitVec.le_toInt x
  have hhi := BitVec.toInt_lt (x := x)
  simp only [fitsSigned16, BitVec.toInt_signExtend_of_le (show 16 ≤ 32 by decide), Bool.and_eq_true, decide_eq_true_eq]
  omega

theorem fitsSigned24_signExtend (x : BitVec 24) : fitsSigned24 (x.signExtend 32) = true := by
  have hlo := BitVec.le_toInt x
  have hhi := BitVec.toInt_lt (x := x)
  simp only [fitsSigned24, BitVec.toInt_signExtend_of_le (show 24 ≤ 32 by decide), Bool.and_eq_true, decide_eq_true_eq]
  omega

theorem fitsUnsigned16_setWidth (x : BitVec 16) : fitsUnsigned16 (x.setWidth 32) = true := by
  have hlt := x.isLt
  simp only [fitsUnsigned16, BitVec.toNat_setWidth, decide_eq_true_eq]
  omega

@[simp] theorem low16_fieldImmLI (w : Word) : low16 (fieldImmLI w) = w.extractLsb' 0 16 := setWidth_signExtend (by decide) _
@[simp] theorem low16_fieldImmCI (w : Word) : low16 (fieldImmCI w) = w.extractLsb' 8 16 := setWidth_signExtend (by decide) _
@[simp] theorem low24_fieldOffset24 (w : Word) : low24 (fieldOffset24 w) = w.extractLsb' 0 24 :=
  setWidth_signExtend (by decide) _
@[simp] theorem low16_fieldAddr16 (w : Word) : low16 (fieldAddr16 w) = w.extractLsb' 0 16 := by
  rw [low16, fieldAddr16, BitVec.setWidth_setWidth_of_le _ (by decide), BitVec.setWidth_eq]

@[simp] theorem regBits_fieldHi (w : Word) : regBits (fieldHi w) = w.extractLsb' 16 8 := rfl
@[simp] theorem regBits_fieldMid (w : Word) : regBits (fieldMid w) = w.extractLsb' 8 8 := rfl
@[simp] theorem regBits_fieldLo (w : Word) : regBits (fieldLo w) = w.extractLsb' 0 8 := rfl

/-! ### A word is its fields side by side -/

theorem append_slices_8_16 (w : Word) : w.extractLsb' 16 8 ++ w.extractLsb' 0 16 = w.extractLsb' 0 24 :=
  BitVec.extractLsb'_append_extractLsb'_eq_extractLsb' rfl

theorem append_slices_16_8 (w : Word) : w.extractLsb' 8 16 ++ w.extractLsb' 0 8 = w.extractLsb' 0 24 :=
  BitVec.extractLsb'_append_extractLsb'_eq_extractLsb' rfl

theorem append_slices_8_8_8 (w : Word) :
    w.extractLsb' 16 8 ++ w.extractLsb' 8 8 ++ w.extractLsb' 0 8 = w.extractLsb' 0 24 := by
  have hleft : w.extractLsb' 16 8 ++ w.extractLsb' 8 8 = w.extractLsb' 8 16 :=
    BitVec.extractLsb'_append_extractLsb'_eq_extractLsb' rfl
  rw [hleft, append_slices_16_8]

theorem append_header_slices (w : Word) : fieldCat w ++ fieldOp w ++ w.extractLsb' 0 24 = w := by
  have hheader : fieldCat w ++ fieldOp w = w.extractLsb' 24 8 :=
    BitVec.extractLsb'_append_extractLsb'_eq_extractLsb' rfl
  rw [hheader]
  exact BitVec.extractLsb'_append_extractLsb'

/-- Bytes put together before or after the header is added. -/
theorem append_8_8_8 (cat op : BitVec 4) (a b c : BitVec 8) :
    cat ++ op ++ (a ++ b ++ c) = cat ++ op ++ a ++ b ++ c := by
  rw [BitVec.append_assoc' (x₁ := cat ++ op), BitVec.append_assoc' (x₁ := cat ++ op), BitVec.cast_eq, BitVec.cast_eq]

theorem append_8_16 (cat op : BitVec 4) (a : BitVec 8) (b : BitVec 16) :
    cat ++ op ++ (a ++ b) = cat ++ op ++ a ++ b :=
  BitVec.append_assoc'

theorem append_16_8 (cat op : BitVec 4) (a : BitVec 16) (b : BitVec 8) :
    cat ++ op ++ (a ++ b) = cat ++ op ++ a ++ b :=
  BitVec.append_assoc'

/-! ### The instruction a word is read as -/

@[simp] theorem assemble_mnemonic (mn : Mnemonic) (w : Word) : (assemble mn w).mnemonic = mn := by
  cases mn <;> rfl

theorem assemble_wellFormed (mn : Mnemonic) (w : Word) : (assemble mn w).wellFormed = true := by
  cases mn with
  | loadimm => exact fitsSigned16_signExtend (w.extractLsb' 0 16)
  | jumpif | branchif => exact fitsSigned16_signExtend (w.extractLsb' 8 16)
  | jump | branch => exact fitsSigned24_signExtend (w.extractLsb' 0 24)
  | storedir | loaddir => exact fitsUnsigned16_setWidth (w.extractLsb' 0 16)
  | _ => rfl

/-- Under its mnemonic, the word of a well-formed instruction is read as the instruction: one case for each format. -/
theorem assemble_operandBits {i : Instr} (h : i.wellFormed = true) (cat op : BitVec 4) :
    assemble i.mnemonic (cat ++ op ++ operandBits i) = i := by
  cases i with
  | add rd rs1 rs2 | sub rd rs1 rs2 | mul rd rs1 rs2 | div rd rs1 rs2 | and rd rs1 rs2 | or rd rs1 rs2
  | nand rd rs1 rs2 | nor rd rs1 rs2 | xor rd rs1 rs2 | lsl rd rs1 rs2 | lsr rd rs1 rs2 | lt rd rs1 rs2
  | lte rd rs1 rs2 | gt rd rs1 rs2 | gte rd rs1 rs2 | eq rd rs1 rs2 =>
    obtain ⟨-, -, hhi, hmid, hlo⟩ := fields_of_8_8_8 cat op (regBits rd) (regBits rs1) (regBits rs2)
    simp only [Instr.mnemonic, operandBits, bitsR, append_8_8_8, assemble, hhi, hmid, hlo, regBits_toFin]
  | loadimm rd imm =>
    obtain ⟨-, -, hhi, himm, -⟩ := fields_of_8_16 cat op (regBits rd) (low16 imm)
    simp only [Instr.mnemonic, operandBits, append_8_16, assemble, hhi, himm, regBits_toFin, signExtend_low16 h]
  | loadind r raddr | storeind raddr r =>
    obtain ⟨-, -, hhi, hmid, -⟩ := fields_of_8_8_8 cat op (regBits raddr) (regBits r) 0
    simp only [Instr.mnemonic, operandBits, append_8_8_8, assemble, hhi, hmid, regBits_toFin]
  | storedir addr r | loaddir r addr =>
    obtain ⟨-, -, hhi, -, haddr⟩ := fields_of_8_16 cat op (regBits r) (low16 addr)
    simp only [Instr.mnemonic, operandBits, append_8_16, assemble, hhi, haddr, regBits_toFin, setWidth_low16 h]
  | jump off | branch off =>
    obtain ⟨-, -, hoff⟩ := fields_of_24 cat op (low24 off)
    simp only [Instr.mnemonic, operandBits, assemble, hoff, signExtend_low24 h]
  | jumpd rs =>
    obtain ⟨-, -, hhi, -, -⟩ := fields_of_8_16 cat op (regBits rs) 0
    simp only [Instr.mnemonic, operandBits, append_8_16, assemble, hhi, regBits_toFin]
  | jumpif rcond off | branchif rcond off =>
    obtain ⟨-, -, himm, hlo⟩ := fields_of_16_8 cat op (low16 off) (regBits rcond)
    simp only [Instr.mnemonic, operandBits, append_16_8, assemble, himm, hlo, regBits_toFin, signExtend_low16 h]
  | jumpifd rcond rs | branchifd rcond rs =>
    obtain ⟨-, -, hhi, -, hlo⟩ := fields_of_8_8_8 cat op (regBits rs) 0 (regBits rcond)
    simp only [Instr.mnemonic, operandBits, append_8_8_8, assemble, hhi, hlo, regBits_toFin]
  | ret | end_ => rfl

end Sys2Proof
end

section
/-! The bits a format leaves unused (spec/30_encoding.md R63) take no part in what a word is read as, and the encoder writes
them as 0. -/

namespace Sys2Proof

/-- The two words agree at every bit outside `unused`. -/
def AgreeOutside (unused w w' : Word) : Prop := (w ^^^ w') &&& ~~~unused = 0

theorem AgreeOutside.eq {w w' : Word} (h : AgreeOutside 0 w w') : w = w' := by
  have hused : ~~~(0 : Word) = BitVec.allOnes 32 := rfl
  rw [AgreeOutside, hused, BitVec.and_allOnes] at h
  exact BitVec.xor_eq_zero_iff.mp h

/-- A slice that meets no unused bit. -/
theorem AgreeOutside.extract_eq {unused w w' : Word} (h : AgreeOutside unused w w') {k len : Nat}
    (hused : (~~~unused).extractLsb' k len = BitVec.allOnes len) : w.extractLsb' k len = w'.extractLsb' k len := by
  have hslice := congrArg (BitVec.extractLsb' k len) h
  rw [BitVec.extractLsb'_and, BitVec.extractLsb'_xor, hused, BitVec.and_allOnes] at hslice
  exact BitVec.xor_eq_zero_iff.mp (hslice.trans BitVec.extractLsb'_zero)

theorem agreeOutside_or (unused w pad : Word) : AgreeOutside unused w (w ||| (pad &&& unused)) := by
  ext i hi
  cases hw : w[i] <;> cases hu : unused[i] <;> simp [hw, hu]

theorem agreeOutside_clear (unused w : Word) : AgreeOutside unused w (w &&& ~~~unused) := by
  ext i hi
  cases hw : w[i] <;> cases hu : unused[i] <;> simp [hw, hu]

theorem clear_and_unused (unused w : Word) : (w &&& ~~~unused) &&& unused = 0 := by
  rw [BitVec.and_assoc, BitVec.and_comm (~~~unused)]
  simp

/-- No format marks a bit of the header unused. -/
theorem AgreeOutside.header_eq {mn : Mnemonic} {w w' : Word} (h : AgreeOutside (unusedBits mn) w w') :
    fieldCat w = fieldCat w' ∧ fieldOp w = fieldOp w' := by
  cases mn <;> exact ⟨h.extract_eq rfl, h.extract_eq rfl⟩

/-- What a word is read as under a mnemonic depends on the bits its format uses. -/
theorem AgreeOutside.assemble_eq {mn : Mnemonic} {w w' : Word} (h : AgreeOutside (unusedBits mn) w w') :
    assemble mn w = assemble mn w' := by
  cases mn with
  | loadind | storeind =>
    have hhi : fieldHi w = fieldHi w' := congrArg BitVec.toFin (h.extract_eq rfl)
    have hmid : fieldMid w = fieldMid w' := congrArg BitVec.toFin (h.extract_eq rfl)
    simp only [assemble, hhi, hmid]
  | jumpd =>
    have hhi : fieldHi w = fieldHi w' := congrArg BitVec.toFin (h.extract_eq rfl)
    simp only [assemble, hhi]
  | jumpifd | branchifd =>
    have hhi : fieldHi w = fieldHi w' := congrArg BitVec.toFin (h.extract_eq rfl)
    have hlo : fieldLo w = fieldLo w' := congrArg BitVec.toFin (h.extract_eq rfl)
    simp only [assemble, hhi, hlo]
  | ret | end_ => rfl
  | _ => exact congrArg _ h.eq

/-- Where the unused bits are 0, so is a slice of them. -/
theorem extract_of_unused {unused w : Word} (h : w &&& unused = 0) {k len : Nat}
    (hunused : unused.extractLsb' k len = BitVec.allOnes len) : w.extractLsb' k len = 0 := by
  have hslice := congrArg (BitVec.extractLsb' k len) h
  rw [BitVec.extractLsb'_and, hunused, BitVec.and_allOnes] at hslice
  exact hslice.trans BitVec.extractLsb'_zero

/-- The operand bits of the instruction a word is read as are the word's, if its unused bits are 0. -/
theorem operandBits_assemble {mn : Mnemonic} {w : Word} (h : w &&& unusedBits mn = 0) :
    operandBits (assemble mn w) = w.extractLsb' 0 24 := by
  cases mn with
  | loadimm | storedir | loaddir =>
    simp only [assemble, operandBits, regBits_fieldHi, low16_fieldImmLI, low16_fieldAddr16, append_slices_8_16]
  | loadind | storeind =>
    have hpad : w.extractLsb' 0 8 = 0 := extract_of_unused h rfl
    simp only [assemble, operandBits, regBits_fieldHi, regBits_fieldMid, ← hpad, append_slices_8_8_8]
  | jump | branch => exact low24_fieldOffset24 w
  | jumpd =>
    have hpad : w.extractLsb' 0 16 = 0 := extract_of_unused h rfl
    simp only [assemble, operandBits, regBits_fieldHi, ← hpad, append_slices_8_16]
  | jumpif | branchif =>
    simp only [assemble, operandBits, low16_fieldImmCI, regBits_fieldLo, append_slices_16_8]
  | jumpifd | branchifd =>
    have hpad : w.extractLsb' 8 8 = 0 := extract_of_unused h rfl
    simp only [assemble, operandBits, regBits_fieldHi, regBits_fieldLo, ← hpad, append_slices_8_8_8]
  | ret | end_ => exact (extract_of_unused h rfl).symm
  | _ => exact append_slices_8_8_8 w

end Sys2Proof
end

section
/-! The map from the pair (cat, op) to a mnemonic, and the decoder's answers by the map's entries (spec/30_encoding.md
R62). -/

namespace Sys2Proof

/-! ### The entries of a map -/

theorem hasCategory_iff {m : OpMap} {cat : BitVec 4} : m.hasCategory cat = true ↔ ∃ r ∈ m, r.cat = cat := by
  simp [OpMap.hasCategory]

theorem lookup_eq_none_iff {m : OpMap} {cat op : BitVec 4} :
    m.lookup cat op = none ↔ ∀ r ∈ m, ¬(r.cat = cat ∧ r.op = op) := by
  induction m with
  | nil => simp [OpMap.lookup]
  | cons r rest ih =>
    rw [OpMap.lookup, List.forall_mem_cons, ← ih]
    split <;> simp [*]

/-- What a lookup finds stands in an entry. -/
theorem mem_of_lookup {m : OpMap} {cat op : BitVec 4} {mn : Mnemonic} (h : m.lookup cat op = some mn) :
    (⟨cat, op, mn⟩ : OpRow) ∈ m := by
  induction m with
  | nil => cases h
  | cons r rest ih =>
    rw [OpMap.lookup] at h
    split at h
    next hr =>
      obtain ⟨rfl, rfl⟩ := hr
      cases h
      exact List.mem_cons_self
    next => exact List.mem_cons_of_mem r (ih h)

theorem wellFormed_cons {r : OpRow} {rest : OpMap} :
    OpMap.wellFormed (r :: rest) = true ↔ (∀ q ∈ rest, ¬(q.cat = r.cat ∧ q.op = r.op)) ∧ rest.wellFormed = true := by
  simp [OpMap.wellFormed]

/-- In a map without a duplicate pair, a lookup finds every entry. -/
theorem lookup_of_mem {m : OpMap} (hm : m.wellFormed = true) {r : OpRow} (hr : r ∈ m) :
    m.lookup r.cat r.op = some r.mnemonic := by
  induction m with
  | nil => cases hr
  | cons q rest ih =>
    obtain ⟨hfresh, hrest⟩ := wellFormed_cons.mp hm
    obtain rfl | hr := List.mem_cons.mp hr
    · exact if_pos ⟨rfl, rfl⟩
    · rw [OpMap.lookup, if_neg fun ⟨hcat, hop⟩ => hfresh r hr ⟨hcat.symm, hop.symm⟩, ih hrest hr]

/-- The code of a mnemonic is the pair of one of its entries. -/
theorem codeOf_of_mem {m : OpMap} {mn : Mnemonic} (h : ∃ r ∈ m, r.mnemonic = mn) :
    ∃ r ∈ m, r.mnemonic = mn ∧ m.codeOf mn = some (r.cat, r.op) := by
  induction m with
  | nil => simp at h
  | cons q rest ih =>
    by_cases hq : q.mnemonic = mn
    · exact ⟨q, List.mem_cons_self, hq, if_pos hq⟩
    · obtain ⟨r, hr, hmn⟩ := h
      obtain ⟨r, hr, hmn, hcode⟩ := ih ⟨r, List.mem_of_ne_of_mem (by rintro rfl; exact hq hmn) hr, hmn⟩
      exact ⟨r, List.mem_cons_of_mem q hr, hmn, by rw [OpMap.codeOf, if_neg hq, hcode]⟩

/-- So a map without a duplicate pair reads the code back as the mnemonic. -/
theorem lookup_codeOf {m : OpMap} (hm : m.wellFormed = true) {mn : Mnemonic} (h : ∃ r ∈ m, r.mnemonic = mn) :
    ∃ cat op, m.codeOf mn = some (cat, op) ∧ m.lookup cat op = some mn := by
  obtain ⟨r, hr, rfl, hcode⟩ := codeOf_of_mem h
  exact ⟨r.cat, r.op, hcode, lookup_of_mem hm hr⟩

theorem encodeWith_of_codeOf {m : OpMap} {i : Instr} {cat op : BitVec 4} (h : m.codeOf i.mnemonic = some (cat, op)) :
    encodeWith m i = some (cat ++ op ++ operandBits i) := by
  rw [encodeWith, h]

/-! ### The default map (the spec's decision D1) -/

theorem default_wellFormed : OpMap.default.wellFormed = true := by decide

theorem default_complete (mn : Mnemonic) : ∃ r ∈ OpMap.default, r.mnemonic = mn := by
  cases mn <;> decide

/-- The default map gives a mnemonic one pair only. -/
theorem default_codeOf {cat op : BitVec 4} {mn : Mnemonic} (h : OpMap.default.lookup cat op = some mn) :
    OpMap.default.codeOf mn = some (cat, op) := by
  have hentries : ∀ r ∈ OpMap.default, OpMap.default.codeOf r.mnemonic = some (r.cat, r.op) := by decide
  exact hentries _ (mem_of_lookup h)

/-- How many opcodes, from 0 on, the default map defines in a category. -/
def definedOpcodes : Nat → Nat
  | 0 => 5
  | 1 => 4
  | 2 => 9
  | 3 => 5
  | 4 => 2
  | 5 => 5
  | _ => 0

theorem default_hasCategory (cat : BitVec 4) : OpMap.default.hasCategory cat = true ↔ cat.toNat < 6 := by
  revert cat
  decide

theorem default_lookup_eq_none (cat op : BitVec 4) :
    OpMap.default.lookup cat op = none ↔ definedOpcodes cat.toNat ≤ op.toNat := by
  revert cat op
  decide

/-- The opcodes a category defines, by its number (30_encoding.md R64). -/
theorem defined_opcode_iff (cat op : Nat) :
    op < definedOpcodes cat ↔
      (cat = 0 ∧ op < 5) ∨ (cat = 1 ∧ op < 4) ∨ (cat = 2 ∧ op < 9) ∨ (cat = 3 ∧ op < 5) ∨ (cat = 4 ∧ op < 2) ∨
        (cat = 5 ∧ op < 5) := by
  match cat with
  | 0 | 1 | 2 | 3 | 4 | 5 | _ + 6 => simp [definedOpcodes]

/-- The opcodes a defined category leaves reserved. -/
theorem reserved_opcode_iff (cat op : Nat) :
    cat < 6 ∧ definedOpcodes cat ≤ op ↔
      (cat = 0 ∧ 5 ≤ op) ∨ (cat = 1 ∧ 4 ≤ op) ∨ (cat = 2 ∧ 9 ≤ op) ∨ (cat = 3 ∧ 5 ≤ op) ∨ (cat = 4 ∧ 2 ≤ op) ∨
        (cat = 5 ∧ 5 ≤ op) := by
  match cat with
  | 0 | 1 | 2 | 3 | 4 | 5 | _ + 6 => simp [definedOpcodes]

/-! ### The decoder's answers -/

theorem decodeWith_eq_invalidCategory {m : OpMap} {w : Word} :
    decodeWith m w = .invalidCategory ↔ ¬m.hasCategory (fieldCat w) = true := by
  rw [decodeWith]
  split
  · cases m.lookup (fieldCat w) (fieldOp w) <;> simp [*]
  · simp [*]

theorem decodeWith_eq_invalidOpcode {m : OpMap} {w : Word} :
    decodeWith m w = .invalidOpcode ↔
      m.hasCategory (fieldCat w) = true ∧ m.lookup (fieldCat w) (fieldOp w) = none := by
  rw [decodeWith]
  split
  · cases m.lookup (fieldCat w) (fieldOp w) <;> simp [*]
  · simp [*]

/-- A word decodes to an instruction exactly if the map gives its pair to the mnemonic and its fields are the operands. -/
theorem decodeWith_eq_instr {m : OpMap} {w : Word} {i : Instr} :
    decodeWith m w = .instr i ↔
      m.lookup (fieldCat w) (fieldOp w) = some i.mnemonic ∧ assemble i.mnemonic w = i := by
  cases hl : m.lookup (fieldCat w) (fieldOp w) with
  | some mn =>
    rw [decodeWith_of_lookup hl, Decoded.instr.injEq]
    constructor
    · rintro rfl
      simp
    · rintro ⟨hmn, hi⟩
      rw [Option.some.inj hmn, hi]
  | none =>
    rw [decodeWith, hl]
    split <;> simp

theorem exists_decodeWith_eq_instr {m : OpMap} {w : Word} :
    (∃ i, decodeWith m w = .instr i) ↔ m.lookup (fieldCat w) (fieldOp w) ≠ none := by
  constructor
  · rintro ⟨i, h⟩ hnone
    simp [(decodeWith_eq_instr.mp h).1] at hnone
  · intro h
    obtain ⟨mn, hmn⟩ := Option.ne_none_iff_exists'.mp h
    exact ⟨_, decodeWith_of_lookup hmn⟩

end Sys2Proof
end

section
/-! Words to instructions and back (spec/30_encoding.md R51 to R67). -/

namespace Sys2Proof

/-! ### The layouts (R52 to R59) -/

/-- A word with a header the map defines decodes to what its fields give under the mnemonic. -/
theorem decodeWith_of_header {m : OpMap} {cat op : BitVec 4} {mn : Mnemonic} {w : Word} {i : Instr}
    (h : m.lookup cat op = some mn) (hcat : fieldCat w = cat) (hop : fieldOp w = op) (hi : assemble mn w = i) :
    decodeWith m w = .instr i := by
  rw [decodeWith_of_lookup (by rw [hcat, hop, h]), hi]

/-- Settles O2: each of the sixteen mnemonics takes its operands from the three byte fields. -/
theorem threeRegisterWordsDecode : Obligations.ThreeRegisterWordsDecode := by
  intro m cat op rd rs1 rs2 p hp h
  obtain ⟨hcat, hop, hhi, hmid, hlo⟩ := fields_of_8_8_8 cat op (regBits rd) (regBits rs1) (regBits rs2)
  refine decodeWith_of_header h hcat hop ?_
  have hfields : ∀ w : Word, assemble p.1 w = p.2 (fieldHi w) (fieldMid w) (fieldLo w) := by
    intro w
    fin_cases hp <;> rfl
  rw [hfields, hhi, hmid, hlo, regBits_toFin, regBits_toFin, regBits_toFin]

/-- Settles O3: the operands stand in the fields of the layouts 8-16, 8-8-8, 24 and 16-8. -/
theorem immediateIndirectAndBranchWordsDecode : Obligations.ImmediateIndirectAndBranchWordsDecode := by
  intro m cat op a b imm16 off24 unused
  obtain ⟨hcatLI, hopLI, hrdLI, himmLI, -⟩ := fields_of_8_16 cat op (regBits a) imm16
  obtain ⟨hcatMI, hopMI, hraddrMI, hregMI, -⟩ := fields_of_8_8_8 cat op (regBits a) (regBits b) unused
  obtain ⟨hcatJ, hopJ, hoffJ⟩ := fields_of_24 cat op off24
  obtain ⟨hcatCI, hopCI, himmCI, hrcondCI⟩ := fields_of_16_8 cat op imm16 (regBits b)
  obtain ⟨hcatCD, hopCD, hrsCD, -, hrcondCD⟩ := fields_of_8_8_8 cat op (regBits a) unused (regBits b)
  exact ⟨fun h => decodeWith_of_header h hcatLI hopLI (congrArg₂ Instr.loadimm hrdLI himmLI),
    fun h => decodeWith_of_header h hcatMI hopMI (congrArg₂ Instr.loadind hregMI hraddrMI),
    fun h => decodeWith_of_header h hcatMI hopMI (congrArg₂ Instr.storeind hraddrMI hregMI),
    fun h => decodeWith_of_header h hcatJ hopJ (congrArg Instr.jump hoffJ),
    fun h => decodeWith_of_header h hcatJ hopJ (congrArg Instr.branch hoffJ),
    fun h => decodeWith_of_header h hcatCI hopCI (congrArg₂ Instr.jumpif hrcondCI himmCI),
    fun h => decodeWith_of_header h hcatCI hopCI (congrArg₂ Instr.branchif hrcondCI himmCI),
    fun h => decodeWith_of_header h hcatCD hopCD (congrArg₂ Instr.jumpifd hrcondCD hrsCD),
    fun h => decodeWith_of_header h hcatCD hopCD (congrArg₂ Instr.branchifd hrcondCD hrsCD)⟩

/-- Settles O4: the operands stand in the fields of the layouts 8-16 and 24, and `ret` and `end` have none. -/
theorem directAndOperandlessWordsDecode : Obligations.DirectAndOperandlessWordsDecode := by
  intro m cat op a addr16 unused16 unused24
  obtain ⟨hcatMD, hopMD, hregMD, -, haddrMD⟩ := fields_of_8_16 cat op (regBits a) addr16
  obtain ⟨hcatJD, hopJD, hrsJD, -, -⟩ := fields_of_8_16 cat op (regBits a) unused16
  obtain ⟨hcatN, hopN, -⟩ := fields_of_24 cat op unused24
  exact ⟨fun h => decodeWith_of_header h hcatMD hopMD (congrArg₂ Instr.storedir haddrMD hregMD),
    fun h => decodeWith_of_header h hcatMD hopMD (congrArg₂ Instr.loaddir hregMD haddrMD),
    fun h => decodeWith_of_header h hcatJD hopJD (congrArg Instr.jumpd hrsJD),
    fun h => decodeWith_of_header h hcatN hopN rfl, fun h => decodeWith_of_header h hcatN hopN rfl⟩

/-! ### Decode failures (R62, R64) -/

/-- Settles O5: the decoder asks for the category first and for the pair next. -/
theorem decodeFailsOnlyOutsideTheMap : Obligations.DecodeFailsOnlyOutsideTheMap := by
  intro m w
  refine ⟨?_, ?_, ?_⟩
  · rw [decodeWith_eq_invalidCategory, hasCategory_iff]
    exact ⟨fun h r hr hcat => h ⟨r, hr, hcat⟩, fun h ⟨r, hr, hcat⟩ => h r hr hcat⟩
  · rw [decodeWith_eq_invalidOpcode, hasCategory_iff, lookup_eq_none_iff]
    exact Iff.rfl
  · intro hm r hr hcat hop
    exact decodeWith_of_header (lookup_of_mem hm hr) hcat.symm hop.symm rfl

/-- Settles O6: the defined categories are 0 to 5, and the defined opcodes of each go from 0 up. -/
theorem reservedSpaceOfTheDefaultMap : Obligations.ReservedSpaceOfTheDefaultMap := by
  rintro w cat op rfl rfl
  refine ⟨?_, ?_, ?_⟩
  · rw [decode, decodeWith_eq_invalidCategory, default_hasCategory]
    exact Nat.not_lt
  · rw [decode, decodeWith_eq_invalidOpcode, default_hasCategory, default_lookup_eq_none]
    exact reserved_opcode_iff _ _
  · rw [decode, exists_decodeWith_eq_instr, ne_eq, default_lookup_eq_none, Nat.not_le]
    exact defined_opcode_iff _ _

/-! ### Unused bits (R63) -/

theorem decodeWith_of_agreeOutside {m : OpMap} {w w' : Word} {i : Instr} (h : decodeWith m w = .instr i)
    (hagree : AgreeOutside (unusedBits i.mnemonic) w w') : decodeWith m w' = .instr i := by
  obtain ⟨hlookup, hi⟩ := decodeWith_eq_instr.mp h
  obtain ⟨hcat, hop⟩ := hagree.header_eq
  exact decodeWith_of_header hlookup hcat.symm hop.symm (hagree.assemble_eq.symm.trans hi)

/-- Settles O7: the header and the operand fields lie outside the unused bits. -/
theorem unusedBitsAreIgnored : Obligations.UnusedBitsAreIgnored :=
  fun _ _ _ _ h hagree => decodeWith_of_agreeOutside h hagree

/-! ### The round trips (R67) -/

/-- The word of a well-formed instruction decodes to it, with any value in the unused bits. -/
theorem decodeWith_operandBits {m : OpMap} {i : Instr} {cat op : BitVec 4} (hi : i.wellFormed = true)
    (h : m.lookup cat op = some i.mnemonic) (pad : Word) :
    decodeWith m ((cat ++ op ++ operandBits i) ||| (pad &&& unusedBits i.mnemonic)) = .instr i := by
  obtain ⟨hcat, hop⟩ := header_fields cat op (operandBits i)
  exact decodeWith_of_agreeOutside (decodeWith_of_header h hcat hop (assemble_operandBits hi cat op))
    (agreeOutside_or _ _ pad)

/-- A map without a duplicate pair that has an entry for the instruction gives it such a word. -/
theorem encodeWith_decodes {m : OpMap} {i : Instr} (hi : i.wellFormed = true) (hm : m.wellFormed = true)
    (h : ∃ r ∈ m, r.mnemonic = i.mnemonic) :
    ∃ w, encodeWith m i = some w ∧ ∀ pad : Word, decodeWith m (w ||| (pad &&& unusedBits i.mnemonic)) = .instr i := by
  obtain ⟨cat, op, hcode, hlookup⟩ := lookup_codeOf hm h
  exact ⟨_, encodeWith_of_codeOf hcode, decodeWith_operandBits hi hlookup⟩

/-- Settles O8: the default map is a map without a duplicate pair that has an entry for every instruction. -/
theorem encodeThenDecodeIsIdentity : Obligations.EncodeThenDecodeIsIdentity := by
  intro i hi
  refine ⟨fun m cat op pad h => decodeWith_operandBits hi h pad, fun m hm h => encodeWith_decodes hi hm h, ?_⟩
  obtain ⟨w, hencode, hdecode⟩ := encodeWith_decodes hi default_wellFormed (default_complete i.mnemonic)
  refine ⟨w, hencode, ?_⟩
  simpa [decode] using hdecode 0

/-- A word whose unused bits are 0 is the word of what it decodes to. -/
theorem encode_of_decode {w : Word} {i : Instr} (h : decode w = .instr i) (hunused : w &&& unusedBits i.mnemonic = 0) :
    encode i = some w := by
  obtain ⟨hlookup, hi⟩ := decodeWith_eq_instr.mp h
  have hbits : operandBits i = w.extractLsb' 0 24 := by rw [← operandBits_assemble hunused, hi]
  rw [encode, encodeWith_of_codeOf (default_codeOf hlookup), hbits, append_header_slices]

/-- Settles O9: clearing the unused bits of a word leaves what it decodes to. -/
theorem decodeThenEncodeGivesTheWordBack : Obligations.DecodeThenEncodeGivesTheWordBack := by
  intro w i h
  obtain ⟨-, hi⟩ := decodeWith_eq_instr.mp h
  refine ⟨hi ▸ assemble_wellFormed i.mnemonic w, encode_of_decode ?_ (clear_and_unused _ w)⟩
  exact decodeWith_of_agreeOutside h (agreeOutside_clear _ w)

end Sys2Proof
end

section
/-! The step cycle (spec/40_step_cycle.md R80 to R90): the outcome of a running step by what stands at the pc, and that it
is always a next state. -/

namespace Sys2Proof.Machine

/-! ### The outcomes of a running step (R80 to R83) -/

theorem halt_of_failure (s : State) {c : HaltCause} (h : c.isFailure = true) :
    s.halt c = { s with status := .halted c, diagPc := s.pc, diagWord := s.fetchWord } :=
  if_pos h

theorem halt_of_success (s : State) {c : HaltCause} (h : c.isFailure = false) :
    s.halt c = { s with status := .halted c } :=
  if_neg (by rw [h]; decide)

theorem step_of_invalidCategory {s : State} {e : Word} (hrun : s.status = .running) (hend : s.endAddr = some e)
    (hpc : s.pc ≠ e) (hdecode : decodeWith s.cfg.opmap s.fetchWord = .invalidCategory) :
    step s = .next (s.halt .invalidCategory) := by
  rw [step_running hrun hend, if_neg hpc, hdecode]

theorem step_of_invalidOpcode {s : State} {e : Word} (hrun : s.status = .running) (hend : s.endAddr = some e)
    (hpc : s.pc ≠ e) (hdecode : decodeWith s.cfg.opmap s.fetchWord = .invalidOpcode) :
    step s = .next (s.halt .invalidOpcode) := by
  rw [step_running hrun hend, if_neg hpc, hdecode]

theorem step_at_endAddr {s : State} (hrun : s.status = .running) (hend : s.endAddr = some s.pc) :
    step s = .next (s.halt .pcExhausted) := by
  rw [step_running hrun hend, if_pos rfl]

/-- Settles O10: the third outcome of the decoder, after the status and the end-of-program test. -/
theorem stepExecutesTheDecodedInstruction : Obligations.StepExecutesTheDecodedInstruction :=
  fun _ _ _ => step_of_decode

/-- Settles O11: the test of the pc against END_ADDR stands before the fetch, and a successful halt changes only the
status. -/
theorem endOfProgramTestComesFirst : Obligations.EndOfProgramTestComesFirst := by
  intro s hrun hend
  rw [step_at_endAddr hrun hend, halt_of_success s rfl]

/-- Settles O12: either decode failure is a failing halt, which records the pc and the fetched word. -/
theorem decodeFailureChangesNothingElse : Obligations.DecodeFailureChangesNothingElse := by
  intro s e hrun hend hpc
  refine ⟨fun hdecode => ?_, fun hdecode => ?_, fun i => step_of_decode hrun hend hpc⟩
  · rw [step_of_invalidCategory hrun hend hpc hdecode, halt_of_failure s rfl]
    rfl
  · rw [step_of_invalidOpcode hrun hend hpc hdecode, halt_of_failure s rfl]
    rfl

/-! ### There is always a next state (R90) -/

theorem retire_next (s : State) (r : StepResult) : ∃ t, retire s r = .next t := by
  cases r with
  | continue_ t => exact ⟨_, rfl⟩
  | jumped t target => exact ⟨_, rfl⟩
  | halted c => exact ⟨_, rfl⟩

/-- Every meaning ends in the pc update (R83, R84): of one result for a register writer, a store and `end`, and of a result
that depends on the state for a transfer, `div` and `ret`. -/
theorem exec_next (i : Instr) (s : State) : ∃ t, exec i s = .next t := by
  cases i with
  | jump | jumpd | jumpif | jumpifd | branch | branchif | branchifd => exact retire_next s _
  | div rd rs1 rs2 =>
    rw [exec, execDiv]
    cases aluDiv s.cfg.div0 (s.reg rs1) (s.reg rs2) with
    | some q => exact ⟨_, writeResult_eq rd q s⟩
    | none => exact retire_next s _
  | ret =>
    rw [exec, execRet]
    cases s.rstack with
    | nil => exact retire_next s _
    | cons top rest => exact retire_next s _
  | _ => exact ⟨_, rfl⟩

/-- A running step halts at END_ADDR, executes what it decodes, or halts with a decode failure. -/
theorem State.CanStep.step_next {s : State} (h : s.CanStep) : ∃ t, step s = .next t := by
  obtain ⟨e, hend⟩ := Option.isSome_iff_exists.mp h.loaded
  by_cases hpc : s.pc = e
  · exact ⟨_, step_at_endAddr h.running (hpc ▸ hend)⟩
  · cases hdecode : decodeWith s.cfg.opmap s.fetchWord with
    | instr i =>
      rw [step_of_decode h.running hend hpc hdecode]
      exact exec_next i s
    | invalidCategory => exact ⟨_, step_of_invalidCategory h.running hend hpc hdecode⟩
    | invalidOpcode => exact ⟨_, step_of_invalidOpcode h.running hend hpc hdecode⟩

/-- Settles O15: each outcome of a running step is a halt or an execution, and execution always retires. -/
theorem runningMachineAlwaysSteps : Obligations.RunningMachineAlwaysSteps :=
  ⟨fun _ h => h.step_next, exec_next⟩

/-! ### A placed word (notes/assumptions/7.md) -/

/-- Adding 4 moves an address, also where it wraps. -/
theorem nextPc_ne_pc (s : State) : s.nextPc ≠ s.pc := by
  rw [nextPc_eq]
  simp

/-- Placing a word leaves an END_ADDR that is not the pc. -/
theorem placeWord_endAddr_ne_pc (s : State) (w : Word) : ∃ e, (s.placeWord w).endAddr = some e ∧ s.pc ≠ e := by
  by_cases h : s.endAddr = none ∨ s.endAddr = some s.pc
  · exact ⟨s.nextPc, if_pos h, (nextPc_ne_pc s).symm⟩
  · obtain ⟨hloaded, hpc⟩ := not_or.mp h
    obtain ⟨e, hend⟩ := Option.ne_none_iff_exists'.mp hloaded
    exact ⟨e, (if_neg h).trans hend, fun heq => hpc (heq ▸ hend)⟩

theorem placeWord_fetchWord {s : State} (h : s.mem.wf = true) (w : Word) : (s.placeWord w).fetchWord = w :=
  read_write_self h

theorem step_placeWord {s : State} {w : Word} {i : Instr} (h : s.mem.wf = true)
    (hdecode : decodeWith s.cfg.opmap w = .instr i) : step (s.placeWord w) = exec i (s.placeWord w) := by
  obtain ⟨e, hend, hpc⟩ := placeWord_endAddr_ne_pc s w
  exact step_of_decode (placeWord_status s w) hend hpc (by rw [placeWord_cfg, placeWord_fetchWord h, hdecode])

theorem decode_of_decodeTableWord {nbits w : Nat} {i : Instr} (h : decodeTableWord nbits w = some i) :
    decode (BitVec.ofNat 32 (w % 2 ^ nbits)) = .instr i := by
  rw [decodeTableWord] at h
  cases hdecode : decode (BitVec.ofNat 32 (w % 2 ^ nbits)) with
  | instr j =>
    rw [hdecode] at h
    exact congrArg Decoded.instr (Option.some.inj h)
  | invalidCategory | invalidOpcode =>
    rw [hdecode] at h
    cases h

/-- Settles O27: the placed word is what the next step fetches, and END_ADDR is elsewhere. -/
theorem placedWordRunsNext : Obligations.PlacedWordRunsNext := by
  intro s nbits w i h hdefault hdecode
  exact step_placeWord h (by rw [hdefault]; exact decode_of_decodeTableWord hdecode)

end Sys2Proof.Machine
end

section
/-! The Memory category (spec/41_memory_ops.md R100 to R105): word, effect and reach of the two loads, the two stores and
`loadimm` under the default OPMAP. -/

namespace Sys2Proof

/-- The range of a sign-extended 16-bit field, read as unsigned: its two halves lie at the two ends. -/
theorem fitsSigned16_iff_toNat (v : Word) : fitsSigned16 v = true ↔ v.toNat ≤ 0x7FFF ∨ 0xFFFF8000 ≤ v.toNat := by
  have hlt := v.isLt
  simp only [fitsSigned16, BitVec.toInt_eq_toNat_cond, Bool.and_eq_true, decide_eq_true_eq]
  split <;> omega

/-- The values a 16-bit field takes when it is sign-extended (30_encoding.md R61). -/
theorem exists_signExtend_eq_iff (v : Word) : (∃ x : BitVec 16, x.signExtend 32 = v) ↔ fitsSigned16 v = true :=
  ⟨fun ⟨x, hx⟩ => hx ▸ fitsSigned16_signExtend x, fun h => ⟨low16 v, signExtend_low16 h⟩⟩

end Sys2Proof

namespace Sys2Proof.Machine

/-- Settles O32: format LI, one register write, and the words that are the sign extension of their low 16 bits. -/
theorem loadimmWritesTheSignExtendedImmediate : Obligations.LoadimmWritesTheSignExtendedImmediate := by
  refine ⟨fun rd imm16 => ⟨?_, fun s => writeResult_eq rd _ s⟩, fun v => ?_⟩
  · obtain ⟨hloadimm, -⟩ := immediateIndirectAndBranchWordsDecode OpMap.default 0 0 rd rd imm16 0 0
    exact hloadimm rfl
  · rw [exists_signExtend_eq_iff, fitsSigned16_iff_toNat]

/-- Settles O33: format MI, and one register write of a cell read before it. -/
theorem loadindReadsItsCell : Obligations.LoadindReadsItsCell := by
  intro s rd raddr unused
  obtain ⟨-, hloadind, -⟩ := immediateIndirectAndBranchWordsDecode OpMap.default 0 1 raddr rd 0 0 unused
  exact ⟨hloadind rfl, writeResult_eq rd _ s⟩

/-- Settles O34: format MD, and one register write of a cell read before it. -/
theorem loaddirReadsItsCell : Obligations.LoaddirReadsItsCell := by
  intro s rd addr16
  obtain ⟨-, hloaddir, -⟩ := directAndOperandlessWordsDecode OpMap.default 0 4 rd addr16 0 0
  exact ⟨hloaddir rfl, writeResult_eq rd _ s⟩

/-- Settles O35: format MI, and one memory write at the address register's value. -/
theorem storeindWritesOneCell : Obligations.StoreindWritesOneCell := by
  intro s raddr rs unused
  obtain ⟨-, -, hstoreind, -⟩ := immediateIndirectAndBranchWordsDecode OpMap.default 0 2 raddr rs 0 0 unused
  exact ⟨hstoreind rfl, writeCell_eq _ _ s, rfl, read_write_self, fun _ ha => read_write_ne s.mem _ ha⟩

/-- Settles O36: format MD, and one memory write at an address that the zero extension leaves as the field has it. -/
theorem storedirWritesOneCell : Obligations.StoredirWritesOneCell := by
  rintro s rs addr16 _ rfl
  obtain ⟨hstoredir, -⟩ := directAndOperandlessWordsDecode OpMap.default 0 3 rs addr16 0 0
  exact ⟨hstoredir rfl, writeCell_eq _ _ s, BitVec.toNat_setWidth_of_le (by decide), read_write_self,
    fun _ ha => read_write_ne s.mem _ ha⟩

end Sys2Proof.Machine
end

section
/-! The Arithmetic category (spec/42_arithmetic.md R110 to R115): word and effect of `add`, `sub` and `mul` under the default
OPMAP, and `div` by what its divisor is. -/

namespace Sys2Proof.Machine

/-! ### The wrapping operations (R110 to R112) -/

/-- Settles O37: format R, and one register write of the sum, difference or product of 32-bit patterns. -/
theorem addSubMulWrap : Obligations.AddSubMulWrap := by
  intro s rd rs1 rs2
  have hword := fun op => threeRegisterWordsDecode OpMap.default 1 op rd rs1 rs2
  refine ⟨hword 0 (.add, .add) (by simp) rfl, ?_, hword 1 (.sub, .sub) (by simp) rfl, ?_,
    hword 2 (.mul, .mul) (by simp) rfl, ?_⟩
  · rw [exec, execAdd, writeResult_eq, aluAdd_eq]
  · rw [exec, execSub, writeResult_eq, aluSub_eq]
  · rw [exec, execMul, writeResult_eq, aluMul_eq]

/-! ### The quotient (R113) -/

/-- The rule's quotient, rounded toward zero and wrapped, is the library's signed division (by 0, too, where both are 0). -/
theorem aluQuotient_eq_sdiv (n d : Word) : aluQuotient n d = n.sdiv d := by
  rw [← BitVec.toInt_inj, aluQuotient_toInt, BitVec.toInt_sdiv]

/-- Every quotient but -2^31 / -1 fits into 32 bits, and is then exact. -/
theorem aluQuotient_exact {n d : Word} (h : ¬(n = 0x80000000 ∧ d = 0xFFFFFFFF)) :
    (aluQuotient n d).toInt = n.toInt.tdiv d.toInt := by
  rw [aluQuotient_eq_sdiv]
  exact BitVec.toInt_sdiv_of_ne_or_ne n d (not_and_or.mp h)

/-- -2^31 / -1 is 2^31, which wraps (the spec's decision D11). -/
theorem aluQuotient_overflow : aluQuotient 0x80000000 0xFFFFFFFF = 0x80000000 := by decide

/-! ### The outcomes of `div` (R113, R114) -/

theorem exec_div_of_quotient {s : State} {rs1 rs2 : Reg} {q : Word}
    (h : aluDiv s.cfg.div0 (s.reg rs1) (s.reg rs2) = some q) (rd : Reg) :
    exec (.div rd rs1 rs2) s = .next { s.setReg rd q with pc := s.pc + 4 } := by
  simp only [exec, execDiv, h, writeResult_eq]

theorem exec_div_of_raise {s : State} {rs1 rs2 : Reg} (h : aluDiv s.cfg.div0 (s.reg rs1) (s.reg rs2) = none) (rd : Reg) :
    exec (.div rd rs1 rs2) s = .next (s.halt .divisionByZero) := by
  simp only [exec, execDiv, h, retire_halted]

/-- Settles O38: a divisor that is not 0 has a quotient under every policy, exact but for the one overflow. -/
theorem divTruncatesTowardZero : Obligations.DivTruncatesTowardZero := by
  intro s rd rs1 rs2 hne
  refine ⟨threeRegisterWordsDecode OpMap.default 1 3 rd rs1 rs2 (.div, .div) (by simp) rfl,
    aluQuotient (s.reg rs1) (s.reg rs2), exec_div_of_quotient (aluDiv_of_ne_zero _ _ hne) rd, ?_, aluQuotient_exact⟩
  rintro ⟨hn, hd⟩
  rw [hn, hd, aluQuotient_overflow]

/-- Settles O39: without a quotient `div` is a failing halt, which records the pc and the word at it. -/
theorem divByZeroIsFatalByDefault : Obligations.DivByZeroIsFatalByDefault := by
  intro s rd rs1 rs2 hfatal hzero
  rw [exec_div_of_raise ((aluDiv_eq_none_iff _ _ _).mpr ⟨hzero, hfatal⟩) rd, halt_of_failure s rfl, State.fetchWord]

/-- Settles O40: the configured value stands in for the quotient. -/
theorem divByZeroGivesTheConfiguredValue : Obligations.DivByZeroGivesTheConfiguredValue := by
  intro s rd rs1 rs2 q hvalue hzero
  exact exec_div_of_quotient (by rw [hvalue, hzero, aluDiv_zero]) rd

end Sys2Proof.Machine
end

section
/-! The Control category (spec/43_control.md R120 to R132): what a transfer and its gate come to, word and effect of the
nine instructions under the default OPMAP, a branch and its return, and the frame of the category. -/

namespace Sys2Proof.Machine

/-! ### Transfers (R120, R121, R129) and their gate (R126) -/

/-- A taken jump goes to an aligned target and halts at any other. -/
theorem retire_takeJump (s : State) (off : Word) :
    (Aligned (s.pc + off) → retire s (takeJump s off) = .next { s with pc := s.pc + off }) ∧
    (¬Aligned (s.pc + off) → retire s (takeJump s off) = .next { s with
      status := .halted .misalignedTarget, diagPc := s.pc, diagWord := s.mem.read s.pc }) := by
  rw [takeJump_eq]
  refine ⟨fun haligned => ?_, fun hmisaligned => ?_⟩
  · rw [if_pos haligned, retire_jumped]
  · rw [if_neg hmisaligned, retire_halted, halt_of_failure s rfl, State.fetchWord]

theorem stackFull_of_depth_le {s : State} {d : Nat} (hd : s.cfg.rsDepth = some d) (hle : d ≤ s.rstack.length) :
    s.stackFull = true :=
  (stackFull_iff s).mpr ⟨d, hd, hle⟩

theorem stackFull_of_lt_depth {s : State} (h : ∀ d, s.cfg.rsDepth = some d → s.rstack.length < d) :
    s.stackFull = false := by
  rw [← Bool.not_eq_true, stackFull_iff]
  rintro ⟨d, hd, hle⟩
  exact absurd (h d hd) (Nat.not_lt.mpr hle)

/-- A taken branch tests the alignment, then the room on the stack, and pushes only when it has passed both. -/
theorem retire_takeBranch (s : State) (off : Word) :
    (¬Aligned (s.pc + off) → retire s (takeBranch s off) = .next { s with
      status := .halted .misalignedTarget, diagPc := s.pc, diagWord := s.mem.read s.pc }) ∧
    (Aligned (s.pc + off) → (∀ d, s.cfg.rsDepth = some d → s.rstack.length < d) →
      retire s (takeBranch s off) = .next { s with pc := s.pc + off, rstack := (s.pc + 4) :: s.rstack }) ∧
    (Aligned (s.pc + off) → ∀ d, s.cfg.rsDepth = some d → d ≤ s.rstack.length →
      retire s (takeBranch s off) = .next { s with
        status := .halted .returnStackOverflow, diagPc := s.pc, diagWord := s.mem.read s.pc }) := by
  rw [takeBranch_eq]
  refine ⟨fun hmisaligned => ?_, fun haligned hroom => ?_, fun haligned d hd hle => ?_⟩
  · rw [if_neg hmisaligned, retire_halted, halt_of_failure s rfl, State.fetchWord]
  · rw [if_pos haligned, stackFull_of_lt_depth hroom]
    rfl
  · rw [if_pos haligned, if_pos (stackFull_of_depth_le hd hle), retire_halted, halt_of_failure s rfl, State.fetchWord]

theorem retire_gated_of_zero {s : State} {rcond : Reg} (h : s.reg rcond = 0) (taken : StepResult) :
    retire s (gated s rcond taken) = .next { s with pc := s.pc + 4 } := by
  rw [gated_eq, if_pos h, retire_continue]

theorem retire_gated_of_ne_zero {s : State} {rcond : Reg} (h : s.reg rcond ≠ 0) (taken : StepResult) :
    retire s (gated s rcond taken) = retire s taken := by
  rw [gated_eq, if_neg h]

/-! ### Returns (R127) -/

theorem exec_ret_of_cons {s : State} {top : Word} {rest : List Word} (h : s.rstack = top :: rest) :
    exec .ret s = .next { s with pc := top, rstack := rest } := by
  simp only [exec, execRet, h, retire_jumped]

theorem exec_ret_of_nil {s : State} (h : s.rstack = []) : exec .ret s = .next { s with pc := s.pc + 4 } := by
  simp only [exec, execRet, h, retire_continue]

/-! ### Word and effect of each instruction (R122 to R131) -/

/-- Settles O41: format J, and a taken jump by the offset. -/
theorem jumpGoesToPcPlusOffset : Obligations.JumpGoesToPcPlusOffset := by
  rintro s off24 off rfl
  obtain ⟨-, -, -, hjump, -⟩ := immediateIndirectAndBranchWordsDecode OpMap.default 2 0 0 0 0 off24 0
  exact ⟨hjump rfl, retire_takeJump s _⟩

/-- Settles O42: format JD, and a taken jump by the register. -/
theorem jumpdGoesToPcPlusRegister : Obligations.JumpdGoesToPcPlusRegister := by
  intro s rs unused
  obtain ⟨-, -, hjumpd, -⟩ := directAndOperandlessWordsDecode OpMap.default 2 1 rs 0 unused 0
  exact ⟨hjumpd rfl, retire_takeJump s _⟩

/-- Settles O43: formats CI and CD; a gate that is shut only advances the pc, an open one leaves the taken jump. -/
theorem conditionalJumpsTestTheRegister : Obligations.ConditionalJumpsTestTheRegister := by
  rintro s rcond rs imm16 unused off rfl
  obtain ⟨-, -, -, -, -, hjumpif, -⟩ := immediateIndirectAndBranchWordsDecode OpMap.default 2 2 0 rcond imm16 0 0
  obtain ⟨-, -, -, -, -, -, -, hjumpifd, -⟩ :=
    immediateIndirectAndBranchWordsDecode OpMap.default 2 3 rs rcond 0 0 unused
  refine ⟨hjumpif rfl, hjumpifd rfl, fun hzero => ⟨retire_gated_of_zero hzero _, retire_gated_of_zero hzero _⟩,
    fun hne => ?_⟩
  have htaken : ∀ off, retire s (gated s rcond (takeJump s off)) = retire s (takeJump s off) :=
    fun off => retire_gated_of_ne_zero hne _
  simp only [exec, execJumpif, execJumpifd, htaken]
  obtain ⟨himmAligned, himmMisaligned⟩ := retire_takeJump s (imm16.signExtend 32)
  exact ⟨himmAligned, himmMisaligned, retire_takeJump s (s.reg rs)⟩

/-- Settles O44: format N, and the two forms of the stack. -/
theorem retPopsIntoThePc : Obligations.RetPopsIntoThePc := by
  intro s unused
  obtain ⟨-, -, -, hret, -⟩ := directAndOperandlessWordsDecode OpMap.default 2 4 0 0 0 unused
  exact ⟨hret rfl, fun _ _ => exec_ret_of_cons, exec_ret_of_nil⟩

/-- Settles O45: format N, and a successful halt, which changes only the status. -/
theorem endHaltsWithSuccess : Obligations.EndHaltsWithSuccess := by
  intro s unused
  obtain ⟨-, -, -, -, hend⟩ := directAndOperandlessWordsDecode OpMap.default 2 5 0 0 0 unused
  exact ⟨hend rfl, congrArg Host.Outcome.next (halt_of_success s rfl), rfl⟩

/-- Settles O46: format J, and a taken branch by the offset. -/
theorem branchPushesThenJumps : Obligations.BranchPushesThenJumps := by
  rintro s off24 off rfl
  obtain ⟨-, -, -, -, hbranch, -⟩ := immediateIndirectAndBranchWordsDecode OpMap.default 2 6 0 0 0 off24 0
  exact ⟨hbranch rfl, retire_takeBranch s _⟩

/-- Settles O47: format CI; a gate that is shut only advances the pc, an open one leaves the taken branch. -/
theorem branchifGatesThePushAndTheJump : Obligations.BranchifGatesThePushAndTheJump := by
  rintro s rcond imm16 off rfl
  obtain ⟨-, -, -, -, -, -, hbranchif, -⟩ :=
    immediateIndirectAndBranchWordsDecode OpMap.default 2 7 0 rcond imm16 0 0
  refine ⟨hbranchif rfl, fun hzero => retire_gated_of_zero hzero _, fun hne => ?_⟩
  rw [exec, execBranchif, retire_gated_of_ne_zero hne]
  exact retire_takeBranch s _

/-- Settles O48: format CD; a gate that is shut only advances the pc, an open one leaves the taken branch. -/
theorem branchifdGatesThePushAndTheJump : Obligations.BranchifdGatesThePushAndTheJump := by
  rintro s rcond rs unused off rfl
  obtain ⟨-, -, -, -, -, -, -, -, hbranchifd⟩ :=
    immediateIndirectAndBranchWordsDecode OpMap.default 2 8 rs rcond 0 0 unused
  refine ⟨hbranchifd rfl, fun hzero => retire_gated_of_zero hzero _, fun hne => ?_⟩
  rw [exec, execBranchifd, retire_gated_of_ne_zero hne]
  exact retire_takeBranch s _

/-! ### A branch and its return (R132) -/

/-- Settles O49: a change of the stack that is not a pop has pushed pc + 4, which `ret` pops. -/
theorem branchThenReturn : Obligations.BranchThenReturn := by
  intro i s t u h hchanged hnotRet hstack
  obtain ⟨hret, -⟩ | ⟨hpushed, -⟩ := onlyRetPopsOnlyBranchesPush i s t h hchanged
  · exact absurd hret hnotRet
  · exact exec_ret_of_cons (hstack.trans hpushed)

/-! ### The frame -/

/-- Settles O58: a control instruction has no destination and is no store, so it updates the pc and the stack or halts. -/
theorem controlFrame : Obligations.ControlFrame := by
  intro i s t hcontrol h
  cases exec_executes h with
  | writes rd v hd ht => cases hd.symm.trans (destination_of_isControl hcontrol)
  | storesIndirect _ _ hi _ | storesDirect _ _ hi _ =>
    subst hi
    cases hcontrol
  | fallsThrough _ ht | jumps _ _ _ _ ht | calls _ _ _ _ _ ht | returns _ _ _ _ ht =>
    subst ht
    exact ⟨rfl, fun _ => rfl, rfl, rfl, .inl ⟨rfl, rfl, rfl⟩⟩
  | halts c ht _ =>
    subst ht
    exact ⟨halt_regs s c, fun a => by rw [halt_mem], halt_endAddr s c, halt_cfg s c,
      .inr ⟨c, halt_status s c, halt_pc s c, halt_rstack s c, halt_diagPc s c, halt_diagWord s c⟩⟩

end Sys2Proof.Machine
end

section
/-! The Logical category (spec/44_logical.md R140 to R144) under the default OPMAP: word, effect and result bits. -/

namespace Sys2Proof.Machine

/-- The complement of R142 and R143 covers the 32 bits of a word and no place above them. -/
theorem getLsbD_complement (v : Word) {k : Nat} (hk : k < 32) : (~~~v).getLsbD k = !v.getLsbD k := by
  rw [BitVec.getLsbD_not, decide_eq_true hk, Bool.true_and]

/-- Settles O51: format R, and one register write of the word operation, which acts on each bit; only the complements of
`nand` and `nor` need the bit to be one of the 32. -/
theorem logicalOperationsActBitwise : Obligations.LogicalOperationsActBitwise := by
  intro s rd rs1 rs2 p hp
  have hword := fun op => threeRegisterWordsDecode OpMap.default 3 op rd rs1 rs2
  simp only [List.mem_cons, List.not_mem_nil, or_false] at hp
  obtain rfl | rfl | rfl | rfl | rfl := hp
  · exact ⟨hword 0 (.and, .and) (by simp) rfl, _, writeResult_eq rd _ s, fun _ _ => BitVec.getLsbD_and⟩
  · exact ⟨hword 1 (.or, .or) (by simp) rfl, _, writeResult_eq rd _ s, fun _ _ => BitVec.getLsbD_or⟩
  · refine ⟨hword 2 (.nand, .nand) (by simp) rfl, _, writeResult_eq rd _ s, fun k hk => ?_⟩
    rw [getLsbD_complement _ hk, BitVec.getLsbD_and]
  · refine ⟨hword 3 (.nor, .nor) (by simp) rfl, _, writeResult_eq rd _ s, fun k hk => ?_⟩
    rw [getLsbD_complement _ hk, BitVec.getLsbD_or]
  · exact ⟨hword 4 (.xor, .xor) (by simp) rfl, _, writeResult_eq rd _ s, fun _ _ => BitVec.getLsbD_xor⟩

end Sys2Proof.Machine
end

section
/-! The Shift category (spec/45_shift.md R150 to R152) under the default OPMAP: the shift by its amount, the clamp by the
amount's sign, and word and effect of `lsl` and `lsr`. -/

namespace Sys2Proof.Machine

/-! ### The shift by its amount (R150, R151) -/

theorem aluShift_of_le (p : ShiftOor) (dir : ShiftDir) (v : Word) {a : Word} (h : a.toNat ≤ 31) :
    aluShift p dir v a = shiftBy dir v a.toNat :=
  if_pos h

theorem aluShift_of_lt (p : ShiftOor) (dir : ShiftDir) (v : Word) {a : Word} (h : 31 < a.toNat) :
    aluShift p dir v a = shiftOutOfRange p dir v a :=
  if_neg (Nat.not_le.mpr h)

/-! ### The clamp by the amount's sign (R152) -/

theorem clampAmount_of_neg {a : Word} (h : a.toInt < 0) : clampAmount a = 0 :=
  if_pos h

/-- A sign bit that is clear leaves the signed reading of the amount as large as the unsigned one. -/
theorem clampAmount_of_nonneg {a : Word} (hlt : 31 < a.toNat) (h : 0 ≤ a.toInt) : clampAmount a = 31 := by
  have hsame : a.toInt = a.toNat := BitVec.toInt_eq_toNat_of_lt (BitVec.toInt_pos_iff.mp h)
  rw [clampAmount, sval, if_neg (Int.not_lt.mpr h), if_pos (by omega)]

/-- Settles O53: the clamp is 0 or 31 by the sign of the amount, and the other policies do not look at the sign. -/
theorem shiftPoliciesOutsideTheRange : Obligations.ShiftPoliciesOutsideTheRange := by
  intro v a hlt
  refine ⟨fun hneg => ?_, fun hnonneg => ?_, fun _ => rfl, shiftBy_left v _, shiftBy_right v _⟩
  · simp only [shiftOutOfRange, clampAmount_of_neg hneg, shiftBy_left, shiftBy_right, BitVec.shiftLeft_zero,
      BitVec.ushiftRight_zero, and_self]
  · simp only [shiftOutOfRange, clampAmount_of_nonneg hlt hnonneg, shiftBy_left, shiftBy_right, and_self]

/-! ### Word and effect of each instruction -/

/-- Settles O52: format R, and one register write of the shift by its amount. -/
theorem shiftsByTheWholeRegister : Obligations.ShiftsByTheWholeRegister := by
  rintro s rd rs1 rs2 _ _ rfl rfl
  have hword := fun op => threeRegisterWordsDecode OpMap.default 4 op rd rs1 rs2
  refine ⟨hword 0 (.lsl, .lsl) (by simp) rfl, hword 1 (.lsr, .lsr) (by simp) rfl, fun hle => ?_, fun hlt => ?_⟩
  · simp only [exec, execLsl, execLsr, writeResult_eq, aluShift_of_le _ _ _ hle, shiftBy_left, shiftBy_right, and_self]
  · simp only [exec, execLsl, execLsr, writeResult_eq, aluShift_of_lt _ _ _ hlt, and_self]

end Sys2Proof.Machine
end

section
/-! The Comparison category (spec/46_comparison.md R160 to R165) under the default OPMAP: word and effect of the five
comparisons, and the relations among their results. -/

namespace Sys2Proof.Machine

/-! ### Word and effect of each instruction (R160 to R164) -/

theorem truthWord_decide (p : Prop) [Decidable p] : truthWord (decide p) = if p then 1 else 0 := by
  simp only [truthWord, decide_eq_true_eq]

/-- Settles O54: format R, and one register write of the truth word; words are equal exactly when their signed readings
are. -/
theorem comparisonsAreSigned : Obligations.ComparisonsAreSigned := by
  rintro s rd rs1 rs2 _ _ rfl rfl
  have hword := fun op => threeRegisterWordsDecode OpMap.default 5 op rd rs1 rs2
  refine ⟨hword 0 (.lt, .lt) (by simp) rfl, ?_, hword 1 (.lte, .lte) (by simp) rfl, ?_,
    hword 2 (.gt, .gt) (by simp) rfl, ?_, hword 3 (.gte, .gte) (by simp) rfl, ?_,
    hword 4 (.eq, .eq) (by simp) rfl, ?_⟩
  · rw [exec, execLt, writeResult_eq, truthWord_decide]
  · rw [exec, execLte, writeResult_eq, truthWord_decide]
  · rw [exec, execGt, writeResult_eq, truthWord_decide]
  · rw [exec, execGte, writeResult_eq, truthWord_decide]
  · simp only [exec, execEq, writeResult_eq, truthWord_decide, BitVec.toInt_inj]

/-! ### The relations among the results (R165) -/

/-- The bitwise or of two truth words is the truth word of the disjunction. -/
theorem ite_or_eq_or_ite (p q : Prop) [Decidable p] [Decidable q] :
    (if p ∨ q then 1 else 0 : Word) = (if p then 1 else 0) ||| (if q then 1 else 0) := by
  by_cases hp : p <;> by_cases hq : q <;> simp [hp, hq]

/-- The order of two integers is total, so one of the three strict comparisons gives 1 and the other two 0. -/
theorem exactly_one_of_lt_eq_gt (a b : Int) (l e g : Word) (hl : l = if a < b then 1 else 0)
    (he : e = if a = b then 1 else 0) (hg : g = if b < a then 1 else 0) :
    (l = 1 ∧ e = 0 ∧ g = 0) ∨ (l = 0 ∧ e = 1 ∧ g = 0) ∨ (l = 0 ∧ e = 0 ∧ g = 1) := by
  subst hl he hg
  obtain hlt | rfl | hgt := lt_trichotomy a b
  · exact .inl ⟨if_pos hlt, if_neg hlt.ne, if_neg hlt.not_gt⟩
  · exact .inr (.inl ⟨if_neg (lt_irrefl a), if_pos rfl, if_neg (lt_irrefl a)⟩)
  · exact .inr (.inr ⟨if_neg hgt.not_gt, if_neg hgt.ne', if_pos hgt⟩)

/-- Settles O55: trichotomy of the signed readings, `≤` as `<` or `=`, and the exchange of the operands by definition. -/
theorem comparisonsAgreeWithEachOther : Obligations.ComparisonsAgreeWithEachOther := by
  intro s rd rs1 rs2
  obtain ⟨-, hlt, -, hlte, -, hgt, -, hgte, -, heq⟩ := comparisonsAreSigned s rd rs1 rs2 _ _ rfl rfl
  refine ⟨_, _, _, hlt, heq, hgt, exactly_one_of_lt_eq_gt _ _ _ _ _ rfl rfl rfl, ?_, ?_, rfl, rfl⟩
  · simp only [hlte, ← ite_or_eq_or_ite, le_iff_lt_or_eq]
  · simp only [hgte, ← ite_or_eq_or_ite, le_iff_lt_or_eq, eq_comm (a := (s.reg rs1).toInt)]

end Sys2Proof.Machine
end

section
/-! The halts (spec/60_exceptions.md R170 to R180): the condition and the priority of each cause, what a halt changes, and
the codes of the causes. -/

namespace Sys2Proof.Machine

/-! ### Where a halt comes from -/

/-- The causes that executing an instruction in `s` can raise, each under its condition. -/
inductive Raises (s : State) : Instr → HaltCause → Prop where
  /-- R174. -/
  | ended : Raises s .end_ .ended
  /-- R172. -/
  | divisionByZero {rd rs1 rs2 : Reg} (hzero : s.reg rs2 = 0) (hfatal : s.cfg.div0 = .fatal) :
      Raises s (.div rd rs1 rs2) .divisionByZero
  /-- R173. -/
  | misalignedTarget {i : Instr} {off : Word} (ho : transferOffset s i = some off) (ha : ¬Aligned (s.pc + off)) :
      Raises s i .misalignedTarget
  /-- R175, and R180 for the alignment, which is tested before the room on the stack. -/
  | returnStackOverflow {i : Instr} {off : Word} (hb : isBranch i = true) (ho : transferOffset s i = some off)
      (ha : Aligned (s.pc + off)) (hfull : s.stackFull = true) : Raises s i .returnStackOverflow

/-- The causes that a step of `s` can halt with, in the order the step tests them. -/
inductive HaltsWith (s : State) : HaltCause → Prop where
  /-- The end-of-program test (R174). -/
  | pcExhausted (hend : s.endAddr = some s.pc) : HaltsWith s .pcExhausted
  /-- The decoder (R170). -/
  | invalidCategory (hend : s.endAddr ≠ some s.pc) (hd : decodeWith s.cfg.opmap s.fetchWord = .invalidCategory) :
      HaltsWith s .invalidCategory
  /-- The decoder (R171). -/
  | invalidOpcode (hend : s.endAddr ≠ some s.pc) (hd : decodeWith s.cfg.opmap s.fetchWord = .invalidOpcode) :
      HaltsWith s .invalidOpcode
  /-- The instruction. -/
  | raises {i : Instr} {c : HaltCause} (hend : s.endAddr ≠ some s.pc)
      (hd : decodeWith s.cfg.opmap s.fetchWord = .instr i) (hr : Raises s i c) : HaltsWith s c

/-- A halted state is of one halt only. -/
theorem cause_of_halt {s : State} {c c' : HaltCause} (h : (s.halt c').status = .halted c) : c' = c :=
  Status.halted.inj ((halt_status s c').symm.trans h)

/-- Every form of execution but a halt leaves the status, so an execution that halts has raised the cause. -/
theorem Executes.halt_of_status {i : Instr} {s t : State} {c : HaltCause} (h : Executes i s t)
    (hrun : s.status = .running) (hc : t.status = .halted c) : t = s.halt c ∧ Raises s i c := by
  cases h with
  | writes _ _ _ ht | storesIndirect _ _ _ ht | storesDirect _ _ _ ht | fallsThrough _ ht | jumps _ _ _ _ ht
  | calls _ _ _ _ _ ht | returns _ _ _ _ ht =>
    subst ht
    have hrunning : Status.running = .halted c := hrun.symm.trans hc
    cases hrunning
  | halts c' ht hraised =>
    subst ht
    obtain rfl := cause_of_halt hc
    obtain ⟨rfl, rfl⟩ | ⟨⟨rd, rs1, rs2, rfl, hzero⟩, hfatal, rfl⟩ | ⟨off, ho, ha, rfl⟩ | ⟨off, hb, ho, ha, hfull, rfl⟩ :=
      hraised
    · exact ⟨rfl, .ended⟩
    · exact ⟨rfl, .divisionByZero hzero hfatal⟩
    · exact ⟨rfl, .misalignedTarget ho ha⟩
    · exact ⟨rfl, .returnStackOverflow hb ho ha hfull⟩

/-- A step that halts is a halt of the state before it, from one of the places of R170 to R175. -/
theorem halt_of_step {s t : State} {c : HaltCause} (h : step s = .next t) (hc : t.status = .halted c) :
    t = s.halt c ∧ HaltsWith s c := by
  obtain ⟨hrun, e, hend, ⟨rfl, rfl⟩ | ⟨hpc, hfetched⟩⟩ := step_next_cases h
  · obtain rfl := cause_of_halt hc
    exact ⟨rfl, .pcExhausted hend⟩
  · have hne : s.endAddr ≠ some s.pc := fun heq => hpc (Option.some.inj (heq.symm.trans hend))
    obtain ⟨i, hd, hexec⟩ | ⟨hd, rfl⟩ | ⟨hd, rfl⟩ := hfetched
    · obtain ⟨ht, hr⟩ := (exec_executes hexec).halt_of_status hrun hc
      exact ⟨ht, .raises hne hd hr⟩
    · obtain rfl := cause_of_halt hc
      exact ⟨rfl, .invalidCategory hne hd⟩
    · obtain rfl := cause_of_halt hc
      exact ⟨rfl, .invalidOpcode hne hd⟩

/-- Settles O16: a step that halts is a halt of the state before it. -/
theorem haltsArePrecise : Obligations.HaltsArePrecise := by
  intro s t c h hc
  rw [(halt_of_step h hc).1, halt_eq]
  rfl

/-! ### The transfer that raises -/

/-- An instruction that makes a transfer, by the place its offset comes from: the word, or a register; under a condition
register that is true, or under none (43_control.md R122 to R131). -/
theorem transfer_of_offset {s : State} {i : Instr} {off : Word} (h : transferOffset s i = some off) :
    i = .jump off ∨ i = .branch off ∨ (∃ rs, i = .jumpd rs ∧ s.reg rs = off) ∨
      ∃ rcond, s.reg rcond ≠ 0 ∧
        (i = .jumpif rcond off ∨ i = .branchif rcond off ∨
          ∃ rs, s.reg rs = off ∧ (i = .jumpifd rcond rs ∨ i = .branchifd rcond rs)) := by
  cases i with
  | jump imm => exact .inl (congrArg Instr.jump (Option.some.inj h))
  | branch imm => exact .inr (.inl (congrArg Instr.branch (Option.some.inj h)))
  | jumpd rs => exact .inr (.inr (.inl ⟨rs, rfl, Option.some.inj h⟩))
  | jumpif rcond imm =>
    obtain ⟨hcond, hoff⟩ := Option.ite_none_left_eq_some.mp h
    exact .inr (.inr (.inr ⟨rcond, hcond, .inl (congrArg (Instr.jumpif rcond) (Option.some.inj hoff))⟩))
  | branchif rcond imm =>
    obtain ⟨hcond, hoff⟩ := Option.ite_none_left_eq_some.mp h
    exact .inr (.inr (.inr ⟨rcond, hcond, .inr (.inl (congrArg (Instr.branchif rcond) (Option.some.inj hoff)))⟩))
  | jumpifd rcond rs =>
    obtain ⟨hcond, hoff⟩ := Option.ite_none_left_eq_some.mp h
    exact .inr (.inr (.inr ⟨rcond, hcond, .inr (.inr ⟨rs, Option.some.inj hoff, .inl rfl⟩)⟩))
  | branchifd rcond rs =>
    obtain ⟨hcond, hoff⟩ := Option.ite_none_left_eq_some.mp h
    exact .inr (.inr (.inr ⟨rcond, hcond, .inr (.inr ⟨rs, Option.some.inj hoff, .inr rfl⟩)⟩))
  | _ => cases h

/-- A branch that makes a transfer, by the place its offset comes from. -/
theorem branch_of_offset {s : State} {i : Instr} {off : Word} (hb : isBranch i = true)
    (h : transferOffset s i = some off) :
    i = .branch off ∨
      ∃ rcond, s.reg rcond ≠ 0 ∧ (i = .branchif rcond off ∨ ∃ rs, s.reg rs = off ∧ i = .branchifd rcond rs) := by
  obtain rfl | hi | ⟨rs, rfl, -⟩ | ⟨rcond, hcond, rfl | hi | ⟨rs, hrs, rfl | hi⟩⟩ := transfer_of_offset h
  · cases hb
  · exact .inl hi
  · cases hb
  · cases hb
  · exact .inr ⟨rcond, hcond, .inl hi⟩
  · cases hb
  · exact .inr ⟨rcond, hcond, .inr ⟨rs, hrs, hi⟩⟩

/-- Settles O17: the places a halt comes from, with the transfer that raises by the place its offset comes from. -/
theorem eachHaltHasItsCause : Obligations.EachHaltHasItsCause := by
  rintro s t c _ rfl h hc
  cases (halt_of_step h hc).2 with
  | pcExhausted hend => exact hend
  | invalidCategory hend hd => exact ⟨hend, hd⟩
  | invalidOpcode hend hd => exact ⟨hend, hd⟩
  | raises hend hd hr =>
    rw [State.fetchWord] at hd
    simp only [hd, Decoded.instr.injEq]
    cases hr with
    | ended => exact ⟨hend, rfl⟩
    | divisionByZero hzero hfatal => exact ⟨hend, hfatal, _, _, _, rfl, hzero⟩
    | misalignedTarget ho ha => exact ⟨hend, _, ha, transfer_of_offset ho⟩
    | returnStackOverflow hb ho ha hfull =>
      exact ⟨hend, (stackFull_iff s).mp hfull, _, ha, branch_of_offset hb ho⟩

/-! ### The two decode failures (R170, R171) -/

/-- Settles O13: the decoder fails exactly outside the map's entries, and under the default map exactly in its reserved
space; a decode failure records the pc and the word and changes nothing else. -/
theorem unknownCategoryOrOpcodeIsFatal : Obligations.UnknownCategoryOrOpcodeIsFatal := by
  rintro s e cat op hrun hend hpc rfl rfl
  obtain ⟨hcategory, hopcode, -⟩ := decodeFailureChangesNothingElse s e hrun hend hpc
  obtain ⟨houtside, hnoPair, -⟩ := decodeFailsOnlyOutsideTheMap s.cfg.opmap (s.mem.read s.pc)
  obtain ⟨hdefaultCat, hdefaultOp, -⟩ := reservedSpaceOfTheDefaultMap (s.mem.read s.pc) _ _ rfl rfl
  refine ⟨rfl, rfl, fun h => hcategory ?_, fun h => hopcode ?_⟩
  · obtain hnone | ⟨hdefault, hcat⟩ := h
    · exact houtside.mpr hnone
    · rw [hdefault]
      exact hdefaultCat.mpr hcat
  · obtain hnone | ⟨hdefault, hreserved⟩ := h
    · exact hnoPair.mpr hnone
    · rw [hdefault]
      simp only [← BitVec.toNat_inj] at hreserved
      exact hdefaultOp.mpr hreserved

/-! ### The halt codes (R177, R178) -/

/-- The status a code stands for. -/
def statusOfCode : Nat → Status
  | 1 => .halted .ended
  | 2 => .halted .pcExhausted
  | 3 => .halted .invalidCategory
  | 4 => .halted .invalidOpcode
  | 5 => .halted .divisionByZero
  | 6 => .halted .misalignedTarget
  | 7 => .halted .returnStackOverflow
  | _ => .running

theorem statusOfCode_code : ∀ x : Status, statusOfCode x.code = x
  | .running => rfl
  | .halted c => by cases c <;> rfl

theorem isFailure_eq_false_iff (c : HaltCause) : c.isFailure = false ↔ c = .ended ∨ c = .pcExhausted := by
  cases c <;> decide

/-- Settles O60: a code can be read back as its status. -/
theorem haltCodesTellTheCausesApart : Obligations.HaltCodesTellTheCausesApart :=
  ⟨rfl, rfl, rfl, rfl, rfl, rfl, rfl, rfl, Function.LeftInverse.injective statusOfCode_code, isFailure_eq_false_iff⟩

end Sys2Proof.Machine
end

section
/-! The start of a run (spec/70_reset_and_hazards.md R200 to R206): the image of a program, the words of a program file and
what boot answers. -/

namespace Sys2Proof.Machine

/-! ### The image of a program (R200, R203) -/

/-- A key that is not one of the program's places is not listed. -/
theorem cellsRead_imageFrom_of_ne {j : Nat} : ∀ (words : List Word) (k : Nat),
    (∀ i < words.length, k + 4 * i ≠ j) → cellsRead (imageFrom k words) j = 0
  | [], _, _ => rfl
  | w :: rest, k, h => by
    have hrest : cellsRead (imageFrom (k + 4) rest) j = 0 :=
      cellsRead_imageFrom_of_ne rest (k + 4) fun i hi heq =>
        h (i + 1) (Nat.succ_lt_succ hi) (by omega)
    rw [imageFrom]
    split
    · exact hrest
    · rw [cellsRead_tail (h 0 (Nat.succ_pos _)), hrest]

/-- Each word of the program reads at its place: a word that is not listed is 0. -/
theorem cellsRead_imageFrom : ∀ (words : List Word) (k i : Nat) (h : i < words.length),
    cellsRead (imageFrom k words) (k + 4 * i) = words[i]
  | w :: rest, k, 0, _ => by
    rw [imageFrom]
    split
    next hw =>
      rw [cellsRead_imageFrom_of_ne rest (k + 4) fun i _ => by omega]
      exact hw.symm
    next => exact cellsRead_head (k, w) _
  | w :: rest, k, i + 1, h => by
    have hplace : k + 4 * (i + 1) = k + 4 + 4 * i := by omega
    have hrest : cellsRead (imageFrom (k + 4) rest) (k + 4 * (i + 1)) = rest[i]'(Nat.lt_of_succ_lt_succ h) := by
      rw [hplace]
      exact cellsRead_imageFrom rest (k + 4) i (Nat.lt_of_succ_lt_succ h)
    rw [imageFrom]
    split
    · exact hrest
    · rw [cellsRead_tail (by simp), hrest]
      rfl

theorem bootWords_read_word {c : Config} {words : List Word} (hlen : words.length ≤ 2 ^ 30) {i : Nat}
    (h : i < words.length) : (State.bootWords c words).mem.read (BitVec.ofNat 32 (4 * i)) = words[i] := by
  have haddr : (BitVec.ofNat 32 (4 * i)).toNat = 0 + 4 * i := by
    rw [BitVec.toNat_ofNat]
    omega
  rw [Memory.read, haddr]
  exact cellsRead_imageFrom words 0 i h

theorem bootWords_read_outside {c : Config} {words : List Word} {a : Word}
    (h : a.toNat % 4 ≠ 0 ∨ 4 * words.length ≤ a.toNat) : (State.bootWords c words).mem.read a = 0 :=
  cellsRead_imageFrom_of_ne words 0 fun i hi heq => by omega

/-- Settles O24: but for the image, the parameters and END_ADDR, a program starts in the reset state. -/
theorem resetWithProgram : Obligations.ResetWithProgram := by
  rintro c words hlen s rfl
  exact ⟨reset_reg, rfl, rfl, rfl, rfl, fun _ h => bootWords_read_word hlen h, fun _ => bootWords_read_outside⟩

/-! ### The words of a program file (R203, R205) -/

/-- The four bytes side by side are the rule's shifts and ors: each place of the word lies in one byte, which both sides
read at the same place. -/
theorem wordOfBytes_eq_or (b0 b1 b2 b3 : Byte) :
    wordOfBytes b0 b1 b2 b3 =
      (b0.setWidth 32 <<< 24 ||| b1.setWidth 32 <<< 16 ||| b2.setWidth 32 <<< 8 ||| b3.setWidth 32) := by
  refine BitVec.eq_of_getLsbD_eq fun i hi => ?_
  simp only [wordOfBytes, BitVec.getLsbD_append, BitVec.getLsbD_or, BitVec.getLsbD_shiftLeft, BitVec.getLsbD_setWidth]
  grind

/-- A file of whole words has a word for every four bytes. -/
theorem fileWords_of_whole : ∀ {file : List Byte}, file.length % 4 = 0 →
    ∃ words, fileWords file = some words ∧ 4 * words.length = file.length ∧
      ∀ (i : Nat) (hi : i < words.length) (h : 4 * i + 3 < file.length),
        words[i] = wordOfBytes file[4 * i] file[4 * i + 1] file[4 * i + 2] file[4 * i + 3]
  | [], _ => ⟨[], rfl, rfl, fun _ hi => absurd hi (Nat.not_lt_zero _)⟩
  | b0 :: b1 :: b2 :: b3 :: rest, hwhole => by
    simp only [List.length_cons] at hwhole
    obtain ⟨words, hwords, hlen, hbytes⟩ := fileWords_of_whole (file := rest) (by omega)
    refine ⟨wordOfBytes b0 b1 b2 b3 :: words, by rw [fileWords, hwords]; rfl, by simp only [List.length_cons]; omega, ?_⟩
    rintro (_ | i) hi h
    · rfl
    · simp only [List.length_cons] at hi h
      exact hbytes i (by omega) (by omega)

/-- A file that ends in part of a word has no words. -/
theorem fileWords_of_partial : ∀ {file : List Byte}, file.length % 4 ≠ 0 → fileWords file = none
  | [], h => absurd rfl h
  | [_], _ => rfl
  | [_, _], _ => rfl
  | [_, _, _], _ => rfl
  | b0 :: b1 :: b2 :: b3 :: rest, h => by
    simp only [List.length_cons] at h
    rw [fileWords, fileWords_of_partial (file := rest) (by omega)]
    rfl

/-! ### What boot answers (R204 to R206) -/

section
variable {c : Config} {file : List Byte} {words : List Word}

theorem boot_of_fits (h : fileWords file = some words) (hpos : 0 < words.length) (hlen : words.length ≤ 2 ^ 30) :
    State.boot c file = .next (State.bootWords c words) := by
  obtain ⟨w, rest, rfl⟩ := List.exists_cons_of_length_pos hpos
  simp only [State.boot, h, if_pos hlen]

theorem boot_of_tooLarge (h : fileWords file = some words) (hlen : 2 ^ 30 < words.length) :
    State.boot c file = .refused .programTooLarge := by
  obtain ⟨w, rest, rfl⟩ := List.exists_cons_of_length_pos (Nat.zero_lt_of_lt hlen)
  simp only [State.boot, h, if_neg (Nat.not_le_of_lt hlen)]

theorem boot_of_partial (h : file.length % 4 ≠ 0) : State.boot c file = .refused .partialWordInProgramFile := by
  simp only [State.boot, fileWords_of_partial h]

end

/-- Settles O25: a file of whole words that fits boots its words, whose image is that of the reset with a program. -/
theorem programFileImage : Obligations.ProgramFileImage := by
  intro c file hwhole hpos hfits
  obtain ⟨words, hwords, hlen, hbytes⟩ := fileWords_of_whole hwhole
  have hwordsFit : words.length ≤ 2 ^ 30 := by omega
  refine ⟨_, boot_of_fits hwords (by omega) hwordsFit, fun i h => ?_, fun a h => bootWords_read_outside (hlen ▸ h)⟩
  have hi : i < words.length := by omega
  rw [bootWords_read_word hwordsFit hi, hbytes i hi h, wordOfBytes_eq_or]

/-- END_ADDR of a program of at least one word (R204). -/
theorem bootWords_endAddr {c : Config} {words : List Word} (hpos : 0 < words.length) :
    (State.bootWords c words).endAddr = some (BitVec.ofNat 32 (4 * words.length - 4)) := by
  have hlast : 4 * ((words.length : Int) - 1) = (4 * words.length - 4 : Nat) := by omega
  rw [State.bootWords, hlast, wrap_natCast]

/-- Settles O26: boot's answer by the words of the file and their number. -/
theorem sentinelAndRefusedFiles : Obligations.SentinelAndRefusedFiles := by
  intro c file
  refine ⟨fun hwhole hpos hfits => ?_, boot_of_partial, ?_, fun hwhole hlarge => ?_⟩
  · obtain ⟨words, hwords, hlen, -⟩ := fileWords_of_whole hwhole
    refine ⟨_, boot_of_fits hwords (by omega) (by omega), ?_⟩
    rw [bootWords_endAddr (by omega), hlen]
  · rintro rfl
    rfl
  · obtain ⟨words, hwords, hlen, -⟩ := fileWords_of_whole hwhole
    exact boot_of_tooLarge hwords (by omega)

end Sys2Proof.Machine
end

section
/-! Written-out words of the default OPMAP (spec/95_test_vectors.md, the spec's decision D1). -/

namespace Sys2Proof

/-- Settles O1: the decoder, run on eleven words. -/
theorem writtenWordsDecode : Obligations.WrittenWordsDecode :=
  ⟨rfl, rfl, rfl, rfl, rfl, rfl, rfl, rfl, rfl, rfl, rfl⟩

end Sys2Proof
end
